-- ==== Sys2Proof/Word.lean ====
section
/-! DEFINITION. The words of the machine (00_scope.md R8, R9): plain bit vectors of the widths the spec gives. -/

namespace Sys2Proof

/-- A byte: a memory cell, a general register, a timer, an immediate NN (R9, R15). -/
abbrev Byte := BitVec 8

/-- A 16-bit word: an instruction word, PC, I, a return address (R18, R19, R24, R57). -/
abbrev Word := BitVec 16

/-- The 12-bit address field NNN (R58). -/
abbrev Addr12 := BitVec 12

/-- One 4-bit field of a word (R9); the height N of a sprite (R58). -/
abbrev Nibble := BitVec 4

/-- The 17-bit `info` field of the FAULT record (R30). -/
abbrev Info := BitVec 17

/-- The index of one of the 16 general registers V0..VF (R15): every 4-bit field names one. -/
abbrev Reg := Fin 16

/-- The contents of the font table: 16 glyphs of 5 bytes, the value of the parameter `FONT` (R8, R41). -/
abbrev Font := Vector Byte 80

end Sys2Proof
end

