-- ==== Sys2Proof/Config.lean ====
section
/-! DEFINITION. What an implementation fixes (the parameters of 00_scope.md R8) and the free values.
The VALUE this hardware gives a policy parameter stands where a test could mend it: `decodePolicy` in
Decode.lean, `spriteEdge` in Machine/Display.lean, `resetPolicy` and `stackDepth` in Machine/Ops.lean, `defaultFont` in
Machine/Font.lean. `FONT` itself is an argument of the power-on state and a field of State (Machine/State.lean). -/

namespace Sys2Proof

/-- `DECODE_5_9` (R64): is the low nibble of 5XYn and 9XYn examined? -/
inductive DecodePolicy where
  | strict  -- n != 0 is unassigned (the spec's default)
  | ignore  -- n is not examined
  deriving DecidableEq, Repr, Inhabited

/-- `SPRITE_X_EDGE` (R114): what a sprite bit past column 63 does. -/
inductive SpriteEdge where
  | wrap  -- drawn at column (x0 + c) mod 64
  | clip  -- not drawn
  deriving DecidableEq, Repr, Inhabited

/-- `RESET_MEMORY` (R142): what the reset transaction does to MEM. -/
inductive ResetPolicy where
  | reload  -- zeros, FONT, then ROM at 0x200
  | retain  -- MEM unchanged
  | clear   -- zeros, then FONT
  deriving DecidableEq, Repr, Inhabited

/-- FREE VALUE. `DECODE_5_9` is OPEN (92_eei_decisions.md D13: no source settles it), so it has no body:
whatever is proved holds under both values. DESIGN CHOICE, safe: log 1. -/
opaque Config.decode59 : DecodePolicy

/-- FREE VALUE. The n-th random byte CXNN draws (R81, D23: "under no law"), so it has no body.
DESIGN CHOICE, safe: log 6. -/
opaque Config.rnd : Nat → Byte

/-- `MEM_SIZE` (R8, R38). -/
def memSize : Nat := 0x1000

/-- `ADDR_MAX` (R8): the highest memory address. -/
def addrMax : Nat := 0xFFF

/-- `PROG_BASE` (R8): where a program is loaded and where PC starts. -/
def progBase : Nat := 0x200

/-- `PROG_MAX` (R8): the largest program image in bytes. -/
def progMax : Nat := 3584

/-- `FB_W` (R8). -/
def fbW : Nat := 64

/-- `FB_H` (R8). -/
def fbH : Nat := 32

/-- `GLYPH_BYTES` (R8). -/
def glyphBytes : Nat := 5

end Sys2Proof
end

