-- ==== Sys2Proof/Syntax.lean ====
section
/-! DEFINITION. The instructions: one constructor per row of spec/opcode_table.json (30_encoding.md R61),
in the table's order. A word of no row is not an instruction: it is the no-op of R80, which the decoder
names (Decode.lean). Constructor names follow the spec's own mnemonics of R68 (log 21). -/

namespace Sys2Proof

/-- The 34 instructions with their operand fields (R58, R59). -/
inductive Instr where
  | cls                              -- 00E0  CLS
  | ret                              -- 00EE  RET
  | jp (nnn : Addr12)                -- 1NNN  JP nnn
  | call (nnn : Addr12)              -- 2NNN  CALL nnn
  | seImm (x : Reg) (nn : Byte)      -- 3XNN  SE Vx, nn
  | sneImm (x : Reg) (nn : Byte)     -- 4XNN  SNE Vx, nn
  | seReg (x y : Reg)                -- 5XY0  SE Vx, Vy
  | ldImm (x : Reg) (nn : Byte)      -- 6XNN  LD Vx, nn
  | addImm (x : Reg) (nn : Byte)     -- 7XNN  ADD Vx, nn
  | ldReg (x y : Reg)                -- 8XY0  LD Vx, Vy
  | orReg (x y : Reg)                -- 8XY1  OR Vx, Vy
  | andReg (x y : Reg)               -- 8XY2  AND Vx, Vy
  | xorReg (x y : Reg)               -- 8XY3  XOR Vx, Vy
  | addReg (x y : Reg)               -- 8XY4  ADD Vx, Vy
  | subReg (x y : Reg)               -- 8XY5  SUB Vx, Vy
  | shr (x y : Reg)                  -- 8XY6  SHR Vx, Vy
  | subn (x y : Reg)                 -- 8XY7  SUBN Vx, Vy
  | shl (x y : Reg)                  -- 8XYE  SHL Vx, Vy
  | sneReg (x y : Reg)               -- 9XY0  SNE Vx, Vy
  | ldI (nnn : Addr12)               -- ANNN  LD I, nnn
  | jpV0 (nnn : Addr12)              -- BNNN  JP V0, nnn
  | rnd (x : Reg) (nn : Byte)        -- CXNN  RND Vx, nn
  | drw (x y : Reg) (n : Nibble)     -- DXYN  DRW Vx, Vy, n
  | skp (x : Reg)                    -- EX9E  SKP Vx
  | sknp (x : Reg)                   -- EXA1  SKNP Vx
  | ldVxDt (x : Reg)                 -- FX07  LD Vx, DT
  | ldVxK (x : Reg)                  -- FX0A  LD Vx, K
  | ldDtVx (x : Reg)                 -- FX15  LD DT, Vx
  | ldStVx (x : Reg)                 -- FX18  LD ST, Vx
  | addI (x : Reg)                   -- FX1E  ADD I, Vx
  | ldF (x : Reg)                    -- FX29  LD F, Vx
  | ldB (x : Reg)                    -- FX33  LD B, Vx
  | storeRegs (x : Reg)              -- FX55  LD [I], Vx
  | loadRegs (x : Reg)               -- FX65  LD Vx, [I]
  deriving DecidableEq, Repr

end Sys2Proof
end

