-- ==== Sys2Proof/WellFormed.lean ====
section
/-! DEFINITION. Well-formedness of instructions (30_encoding.md R58, R59). An operand given as a plain number must
fit its field: X, Y, N below 16, NN below 256, NNN below 4096. Instr carries those bounds in its operand types, so
an instruction cannot be built ill-formed; the check is made on the raw numbers an instruction is built from, and
`Instr.wellFormed` is that check on an instruction's own operands. -/

namespace Sys2Proof

/-- The formats of R59. -/
inductive Format where
  | fixed | addr | regImm | regReg | draw | regSub
  deriving DecidableEq, Repr

/-- The operands of an instruction as plain numbers; a field the format does not use is 0. -/
structure Fields where
  x : Nat := 0
  y : Nat := 0
  n : Nat := 0
  nn : Nat := 0
  nnn : Nat := 0
  deriving DecidableEq, Repr

/-- Do the numbers fit the fields the format uses, and are the others absent (R58, R59)? -/
def Fields.fits (f : Fields) : Format → Bool
  | .fixed => f == {}
  | .addr => decide (f.nnn < 4096) && f == { nnn := f.nnn }
  | .regImm => decide (f.x < 16) && decide (f.nn < 256) && f == { x := f.x, nn := f.nn }
  | .regReg => decide (f.x < 16) && decide (f.y < 16) && f == { x := f.x, y := f.y }
  | .draw => decide (f.x < 16) && decide (f.y < 16) && decide (f.n < 16) && f == { x := f.x, y := f.y, n := f.n }
  | .regSub => decide (f.x < 16) && f == { x := f.x }

/-- The format of each instruction (R59). -/
def Instr.format : Instr → Format
  | .cls | .ret => .fixed
  | .jp _ | .call _ | .ldI _ | .jpV0 _ => .addr
  | .seImm _ _ | .sneImm _ _ | .ldImm _ _ | .addImm _ _ | .rnd _ _ => .regImm
  | .seReg _ _ | .ldReg _ _ | .orReg _ _ | .andReg _ _ | .xorReg _ _ | .addReg _ _ | .subReg _ _ | .shr _ _
  | .subn _ _ | .shl _ _ | .sneReg _ _ => .regReg
  | .drw _ _ _ => .draw
  | .skp _ | .sknp _ | .ldVxDt _ | .ldVxK _ | .ldDtVx _ | .ldStVx _ | .addI _ | .ldF _ | .ldB _ | .storeRegs _
  | .loadRegs _ => .regSub

/-- The operands of each instruction as plain numbers. -/
def Instr.fields : Instr → Fields
  | .cls | .ret => {}
  | .jp a | .call a | .ldI a | .jpV0 a => { nnn := a.toNat }
  | .seImm x k | .sneImm x k | .ldImm x k | .addImm x k | .rnd x k => { x := x.val, nn := k.toNat }
  | .seReg x y | .ldReg x y | .orReg x y | .andReg x y | .xorReg x y | .addReg x y | .subReg x y | .shr x y
  | .subn x y | .shl x y | .sneReg x y => { x := x.val, y := y.val }
  | .drw x y n => { x := x.val, y := y.val, n := n.toNat }
  | .skp x | .sknp x | .ldVxDt x | .ldVxK x | .ldDtVx x | .ldStVx x | .addI x | .ldF x | .ldB x | .storeRegs x
  | .loadRegs x => { x := x.val }

/-- Every operand fits its field. -/
def Instr.wellFormed (i : Instr) : Bool := i.fields.fits i.format

end Sys2Proof
end

