-- ==== Sys2Proof/Decode.lean ====
section
/-! DEFINITION. Decoding and encoding (30_encoding.md). Decode is total: a word of no row is the no-op, named
(R62, R63); the encoder is written from the same rows (R61). -/

namespace Sys2Proof

/-! ### Fields (R58) -/

/-- The leading nibble w[15:12]. -/
def opField (w : Word) : Nibble := w.extractLsb' 12 4
/-- X = w[11:8], a register index. -/
def xField (w : Word) : Reg := (w.extractLsb' 8 4 : Nibble).toFin
/-- Y = w[7:4], a register index. -/
def yField (w : Word) : Reg := (w.extractLsb' 4 4 : Nibble).toFin
/-- N = w[3:0]. -/
def nField (w : Word) : Nibble := w.extractLsb' 0 4
/-- NN = w[7:0]. -/
def nnField (w : Word) : Byte := w.extractLsb' 0 8
/-- NNN = w[11:0]. -/
def nnnField (w : Word) : Addr12 := w.extractLsb' 0 12

/-- The 4-bit field that names a register. -/
def Reg.bits (r : Reg) : Nibble := BitVec.ofFin r

/-- The word of two fetched bytes, most significant byte first (R46, R57). -/
def wordOfBytes (hi lo : Byte) : Word := hi ++ lo

/-- The byte at the lower address (R46). -/
def hiByte (w : Word) : Byte := w.extractLsb' 8 8

/-- The byte at the higher address (R46). -/
def loByte (w : Word) : Byte := w.extractLsb' 0 8

/-! ### Decode (R61, R62) -/

/-- Group 0: 00E0 and 00EE only (R65). -/
def decodeGroup0 (w : Word) : Option Instr :=
  if w = 0x00E0#16 then some .cls else if w = 0x00EE#16 then some .ret else none

/-- Groups 5 and 9: the low nibble is 0, or is not examined (R64). -/
def decodeLowNibble (p : DecodePolicy) (w : Word) (i : Instr) : Option Instr :=
  if nField w = 0#4 then some i else
    match p with
    | .strict => none
    | .ignore => some i

/-- Group 8: the trailing nibble selects. -/
def decodeGroup8 (w : Word) : Option Instr :=
  match (nField w).toNat with
  | 0x0 => some (.ldReg (xField w) (yField w))
  | 0x1 => some (.orReg (xField w) (yField w))
  | 0x2 => some (.andReg (xField w) (yField w))
  | 0x3 => some (.xorReg (xField w) (yField w))
  | 0x4 => some (.addReg (xField w) (yField w))
  | 0x5 => some (.subReg (xField w) (yField w))
  | 0x6 => some (.shr (xField w) (yField w))
  | 0x7 => some (.subn (xField w) (yField w))
  | 0xE => some (.shl (xField w) (yField w))
  | _ => none

/-- Group E: the trailing byte selects. -/
def decodeGroupE (w : Word) : Option Instr :=
  if nnField w = 0x9E#8 then some (.skp (xField w))
  else if nnField w = 0xA1#8 then some (.sknp (xField w))
  else none

/-- Group F: the trailing byte selects. -/
def decodeGroupF (w : Word) : Option Instr :=
  if nnField w = 0x07#8 then some (.ldVxDt (xField w))
  else if nnField w = 0x0A#8 then some (.ldVxK (xField w))
  else if nnField w = 0x15#8 then some (.ldDtVx (xField w))
  else if nnField w = 0x18#8 then some (.ldStVx (xField w))
  else if nnField w = 0x1E#8 then some (.addI (xField w))
  else if nnField w = 0x29#8 then some (.ldF (xField w))
  else if nnField w = 0x33#8 then some (.ldB (xField w))
  else if nnField w = 0x55#8 then some (.storeRegs (xField w))
  else if nnField w = 0x65#8 then some (.loadRegs (xField w))
  else none

/-- The decoder under a value of `DECODE_5_9`: the instruction of the row the word matches, or `none`, the no-op
of R63. The leading nibble selects the group (R62). -/
def decodeWith (p : DecodePolicy) (w : Word) : Option Instr :=
  match (opField w).toNat with
  | 0x0 => decodeGroup0 w
  | 0x1 => some (.jp (nnnField w))
  | 0x2 => some (.call (nnnField w))
  | 0x3 => some (.seImm (xField w) (nnField w))
  | 0x4 => some (.sneImm (xField w) (nnField w))
  | 0x5 => decodeLowNibble p w (.seReg (xField w) (yField w))
  | 0x6 => some (.ldImm (xField w) (nnField w))
  | 0x7 => some (.addImm (xField w) (nnField w))
  | 0x8 => decodeGroup8 w
  | 0x9 => decodeLowNibble p w (.sneReg (xField w) (yField w))
  | 0xA => some (.ldI (nnnField w))
  | 0xB => some (.jpV0 (nnnField w))
  | 0xC => some (.rnd (xField w) (nnField w))
  | 0xD => some (.drw (xField w) (yField w) (nField w))
  | 0xE => decodeGroupE w
  | _ => decodeGroupF w

/-- The value of `DECODE_5_9` on this hardware: OPEN, the free value of Config (R64, D13; log 1). -/
def decodePolicy : DecodePolicy := Config.decode59

/-- The decoder of the core (R75): it reads nothing but the word. -/
def decode (w : Word) : Option Instr := decodeWith decodePolicy w

/-- What the decoder says of any bytes, by name. -/
inductive Decoded where
  | instr (i : Instr)       -- one of the 34 instructions (R61)
  | unassigned (w : Word)   -- a word of no row: the no-op of R63
  | truncated (n : Nat)     -- fewer than the two bytes of a word (R57); a fetch never gives this
  deriving DecidableEq, Repr

/-- Decode the first instruction of any bytes: always exactly two bytes (R57). -/
def decodeBytes : List Byte → Decoded
  | hi :: lo :: _ =>
    match decode (wordOfBytes hi lo) with
    | some i => .instr i
    | none => .unassigned (wordOfBytes hi lo)
  | bs => .truncated bs.length

/-! ### Encode (R59, R61) -/

/-- The word of an instruction: its row's fixed bits with the operand fields filled in. -/
def encode : Instr → Word
  | .cls => 0x00E0#16
  | .ret => 0x00EE#16
  | .jp a => 0x1#4 ++ a
  | .call a => 0x2#4 ++ a
  | .seImm x k => 0x3#4 ++ Reg.bits x ++ k
  | .sneImm x k => 0x4#4 ++ Reg.bits x ++ k
  | .seReg x y => 0x5#4 ++ Reg.bits x ++ Reg.bits y ++ 0x0#4
  | .ldImm x k => 0x6#4 ++ Reg.bits x ++ k
  | .addImm x k => 0x7#4 ++ Reg.bits x ++ k
  | .ldReg x y => 0x8#4 ++ Reg.bits x ++ Reg.bits y ++ 0x0#4
  | .orReg x y => 0x8#4 ++ Reg.bits x ++ Reg.bits y ++ 0x1#4
  | .andReg x y => 0x8#4 ++ Reg.bits x ++ Reg.bits y ++ 0x2#4
  | .xorReg x y => 0x8#4 ++ Reg.bits x ++ Reg.bits y ++ 0x3#4
  | .addReg x y => 0x8#4 ++ Reg.bits x ++ Reg.bits y ++ 0x4#4
  | .subReg x y => 0x8#4 ++ Reg.bits x ++ Reg.bits y ++ 0x5#4
  | .shr x y => 0x8#4 ++ Reg.bits x ++ Reg.bits y ++ 0x6#4
  | .subn x y => 0x8#4 ++ Reg.bits x ++ Reg.bits y ++ 0x7#4
  | .shl x y => 0x8#4 ++ Reg.bits x ++ Reg.bits y ++ 0xE#4
  | .sneReg x y => 0x9#4 ++ Reg.bits x ++ Reg.bits y ++ 0x0#4
  | .ldI a => 0xA#4 ++ a
  | .jpV0 a => 0xB#4 ++ a
  | .rnd x k => 0xC#4 ++ Reg.bits x ++ k
  | .drw x y n => 0xD#4 ++ Reg.bits x ++ Reg.bits y ++ n
  | .skp x => 0xE#4 ++ Reg.bits x ++ 0x9E#8
  | .sknp x => 0xE#4 ++ Reg.bits x ++ 0xA1#8
  | .ldVxDt x => 0xF#4 ++ Reg.bits x ++ 0x07#8
  | .ldVxK x => 0xF#4 ++ Reg.bits x ++ 0x0A#8
  | .ldDtVx x => 0xF#4 ++ Reg.bits x ++ 0x15#8
  | .ldStVx x => 0xF#4 ++ Reg.bits x ++ 0x18#8
  | .addI x => 0xF#4 ++ Reg.bits x ++ 0x1E#8
  | .ldF x => 0xF#4 ++ Reg.bits x ++ 0x29#8
  | .ldB x => 0xF#4 ++ Reg.bits x ++ 0x33#8
  | .storeRegs x => 0xF#4 ++ Reg.bits x ++ 0x55#8
  | .loadRegs x => 0xF#4 ++ Reg.bits x ++ 0x65#8

/-! ### The opcode map as data (R61) -/

/-- One row of the opcode map: a word is the row's instruction when `w &&& mask = pattern`. -/
structure Row where
  mnemonic : String
  pattern : Word
  mask : Word
  deriving DecidableEq, Repr

/-- The mask of 5XY0 and 9XY0 under each value of `DECODE_5_9` (R64). -/
def mask59 : DecodePolicy → Word
  | .strict => 0xF00F#16
  | .ignore => 0xF000#16

/-- The opcode map of R61, groups 0 to 7. -/
def opcodeMapLow (p : DecodePolicy) : List Row :=
  [⟨"00E0", 0x00E0#16, 0xFFFF#16⟩, ⟨"00EE", 0x00EE#16, 0xFFFF#16⟩, ⟨"1NNN", 0x1000#16, 0xF000#16⟩,
   ⟨"2NNN", 0x2000#16, 0xF000#16⟩, ⟨"3XNN", 0x3000#16, 0xF000#16⟩, ⟨"4XNN", 0x4000#16, 0xF000#16⟩,
   ⟨"5XY0", 0x5000#16, mask59 p⟩, ⟨"6XNN", 0x6000#16, 0xF000#16⟩, ⟨"7XNN", 0x7000#16, 0xF000#16⟩]

/-- The opcode map of R61, groups 8 to D. -/
def opcodeMapMid (p : DecodePolicy) : List Row :=
  [⟨"8XY0", 0x8000#16, 0xF00F#16⟩, ⟨"8XY1", 0x8001#16, 0xF00F#16⟩, ⟨"8XY2", 0x8002#16, 0xF00F#16⟩,
   ⟨"8XY3", 0x8003#16, 0xF00F#16⟩, ⟨"8XY4", 0x8004#16, 0xF00F#16⟩, ⟨"8XY5", 0x8005#16, 0xF00F#16⟩,
   ⟨"8XY6", 0x8006#16, 0xF00F#16⟩, ⟨"8XY7", 0x8007#16, 0xF00F#16⟩, ⟨"8XYE", 0x800E#16, 0xF00F#16⟩,
   ⟨"9XY0", 0x9000#16, mask59 p⟩, ⟨"ANNN", 0xA000#16, 0xF000#16⟩, ⟨"BNNN", 0xB000#16, 0xF000#16⟩,
   ⟨"CXNN", 0xC000#16, 0xF000#16⟩, ⟨"DXYN", 0xD000#16, 0xF000#16⟩]

/-- The opcode map of R61, groups E and F. -/
def opcodeMapHigh : List Row :=
  [⟨"EX9E", 0xE09E#16, 0xF0FF#16⟩, ⟨"EXA1", 0xE0A1#16, 0xF0FF#16⟩, ⟨"FX07", 0xF007#16, 0xF0FF#16⟩,
   ⟨"FX0A", 0xF00A#16, 0xF0FF#16⟩, ⟨"FX15", 0xF015#16, 0xF0FF#16⟩, ⟨"FX18", 0xF018#16, 0xF0FF#16⟩,
   ⟨"FX1E", 0xF01E#16, 0xF0FF#16⟩, ⟨"FX29", 0xF029#16, 0xF0FF#16⟩, ⟨"FX33", 0xF033#16, 0xF0FF#16⟩,
   ⟨"FX55", 0xF055#16, 0xF0FF#16⟩, ⟨"FX65", 0xF065#16, 0xF0FF#16⟩]

/-- The opcode map of R61 under a value of `DECODE_5_9`. -/
def opcodeMap (p : DecodePolicy) : List Row := opcodeMapLow p ++ opcodeMapMid p ++ opcodeMapHigh

/-- Does the word match the row (R61)? -/
def Row.hits (r : Row) (w : Word) : Bool := w &&& r.mask == r.pattern

/-- The row of the opcode map an instruction belongs to, by its mnemonic in spec/opcode_table.json. -/
def Instr.mnemonic : Instr → String
  | .cls => "00E0"
  | .ret => "00EE"
  | .jp _ => "1NNN"
  | .call _ => "2NNN"
  | .seImm _ _ => "3XNN"
  | .sneImm _ _ => "4XNN"
  | .seReg _ _ => "5XY0"
  | .ldImm _ _ => "6XNN"
  | .addImm _ _ => "7XNN"
  | .ldReg _ _ => "8XY0"
  | .orReg _ _ => "8XY1"
  | .andReg _ _ => "8XY2"
  | .xorReg _ _ => "8XY3"
  | .addReg _ _ => "8XY4"
  | .subReg _ _ => "8XY5"
  | .shr _ _ => "8XY6"
  | .subn _ _ => "8XY7"
  | .shl _ _ => "8XYE"
  | .sneReg _ _ => "9XY0"
  | .ldI _ => "ANNN"
  | .jpV0 _ => "BNNN"
  | .rnd _ _ => "CXNN"
  | .drw _ _ _ => "DXYN"
  | .skp _ => "EX9E"
  | .sknp _ => "EXA1"
  | .ldVxDt _ => "FX07"
  | .ldVxK _ => "FX0A"
  | .ldDtVx _ => "FX15"
  | .ldStVx _ => "FX18"
  | .addI _ => "FX1E"
  | .ldF _ => "FX29"
  | .ldB _ => "FX33"
  | .storeRegs _ => "FX55"
  | .loadRegs _ => "FX65"

/-- What the decoder reads from the instruction whose bits are `w`, numbered as spec/opcode_table.json numbers
them; an instruction of this hardware is one word, stored high byte first (R46, R57). -/
def decodeTableWord (nbits w : Nat) : Option Instr :=
  let word : Word := BitVec.ofNat 16 (w % 2 ^ nbits)
  match decodeBytes [hiByte word, loByte word] with
  | .instr i => some i
  | .unassigned _ => none
  | .truncated _ => none

end Sys2Proof
end

