-- ==== Sys2Proof/Machine/State.lean ====
section
/-! DEFINITION. The state of the core (10_state.md) as plain data, the reasons a step can stop, and the state
after power-on (R37, R144). -/

namespace Sys2Proof.Machine

/-- MEM (R38): the bytes that differ from the power-on contents, by strictly rising address. An address that is not
listed reads as `powerOnByte` of the core's FONT (Ops.lean); the canonical form is `Memory.wf` there. -/
abbrev Memory := List Host.Cell

/-- FB (R28): 32 rows of 64 pixels; pixel (x, y) is entry x of row y, `true` = on. -/
abbrev Framebuffer := Vector (Vector Bool 64) 32

/-- The fault causes of R122. -/
inductive FaultCause where
  | none                -- no fault has occurred
  | stackUnderflow      -- 00EE on an empty stack
  | stackOverflow       -- 2NNN on a full stack
  | memOutOfRange       -- DXYN, FX33, FX55, FX65 past 0xFFF
  | fetchOutOfRange     -- a fetch at PC > 0xFFE
  | keyIndexOutOfRange  -- EX9E, EXA1 with VX > 0xF
  deriving DecidableEq, Repr

/-- The code of a cause (R122). -/
def FaultCause.code : FaultCause → Nat
  | .none => 0
  | .stackUnderflow => 1
  | .stackOverflow => 2
  | .memOutOfRange => 3
  | .fetchOutOfRange => 4
  | .keyIndexOutOfRange => 5

/-- The FAULT record (R30). -/
structure FaultRecord where
  cause : FaultCause
  pc : Word
  word : Word
  wordValid : Bool
  info : Sys2Proof.Info
  deriving DecidableEq, Repr

/-- FAULT when no fault has occurred: cause NONE, the other fields 0 (R37). -/
def FaultRecord.clear : FaultRecord := ⟨.none, 0#16, 0#16, false, 0#17⟩

/-- The transactions of the core's interface (R36). Each is atomic, and they are totally ordered (R50). -/
inductive Transaction where
  | step                        -- the execution unit: one instruction (R70); its `rnd` is a free value (log 6)
  | tick                        -- the timer unit (R134)
  | setKeys (k : BitVec 16)     -- the host: bit i = key i pressed (R36)
  | load (image : List Byte)    -- the host: a program image (R44)
  | reset                       -- the host (R141)
  | readFb                      -- the host reads FB (R36): no effect
  | readSound                   -- the host reads ST (R36): no effect
  | readFault                   -- the host reads FAULT (R36): no effect
  deriving DecidableEq, Repr

/-- The whole state (10_state.md). The last three fields are the model's own (log 6, 7, 8). -/
structure State where
  v : Vector Byte 16            -- V0..VF (R15)
  i : Word                      -- I (R18)
  pc : Word                     -- PC (R19)
  stack : List Word             -- STACK, oldest entry first, at most 16 (R24, R25)
  dt : Byte                     -- DT (R26)
  st : Byte                     -- ST (R27)
  fb : Framebuffer              -- FB (R28)
  key : BitVec 16               -- KEY, bit k = key k pressed (R29)
  mem : Memory                  -- MEM (R38)
  rom : List Byte               -- ROM, the last loaded image (R31)
  font : Font                   -- the parameter FONT this core is built with (R8, R41; log 5): nothing writes it
  fault : FaultRecord           -- FAULT (R30)
  changed : Bool                -- the step's own variable `changed` (R70, R77; log 8)
  draws : Nat                   -- how many random bytes have been drawn (R81; log 6)
  agenda : List Transaction     -- the transactions waiting to be taken, oldest first (R50; log 7)
  deriving DecidableEq, Repr

/-- Why the MODEL stops. No reachable or unreachable state makes a step stop so (Safety and the laws say it):
the core's own faults are recorded in FAULT by a next state (log 9). -/
inductive Fault where
  /-- Raised by the memory primitives MemRead and MemWrite (R12) when called with an address above 0xFFF, which R12
  says never happens: every instruction checks its range first. Safe: the model stops where no access exists. -/
  | outsideMemory (addr : Nat)
  deriving DecidableEq, Repr

/-- Why the model has no meaning for an instruction. -/
inductive Refusal where
  /-- An instruction whose meaning is not written yet, by its mnemonic in spec/opcode_table.json. Raised by a
  refused arm of exec only; no arm is refused. Safe: nothing can be proved of such an instruction. -/
  | notModelled (mnemonic : String)
  deriving DecidableEq, Repr

/-- The outcome of an instruction or a step: next state, fault, refusal. -/
abbrev Result := Host.Outcome State Fault Refusal

/-- The power-on state of a core built with the font `f` (R37, R144). FONT and the zeros of MEM are what unlisted
addresses read as. -/
def State.powerOn (f : Font) : State where
  v := Vector.replicate 16 0#8
  i := 0#16
  pc := 0x200#16
  stack := []
  dt := 0#8
  st := 0#8
  fb := Vector.replicate 32 (Vector.replicate 64 false)
  key := 0#16
  mem := []
  rom := []
  font := f
  fault := FaultRecord.clear
  changed := false
  draws := 0
  agenda := []

/-- The power-on state with the default FONT of R41. -/
def State.reset : State := State.powerOn defaultFont

end Sys2Proof.Machine
end

