-- ==== Sys2Proof/Machine/Ops.lean ====
section
/-! DEFINITION. The named operations over memory, registers, PC, the stack and FAULT that every instruction shares:
power-on contents and memory (20_memory.md), ADVANCE (R74), fault entry (R79, R130) and the way out of a fault,
the reset transaction (R131, R141). -/

namespace Sys2Proof.Machine

/-! ### Power-on contents of memory -/

/-- What a byte of MEM holds at power-on: FONT at 0x000..0x04F, 0x00 elsewhere (R43). It is what an address that
Memory does not list reads as (log 11). -/
def powerOnByte (f : Font) (a : Nat) : Byte := f.toList.getD a 0#8

/-! ### Memory (R38) -/

/-- The byte at an address, over power-on contents with the font `f`. -/
def Memory.read (f : Font) : Memory → Nat → Byte
  | [], a => powerOnByte f a
  | (k, b) :: m, a => if k = a then b else Memory.read f m a

/-- Put a cell in front, unless it holds what its address reads as unlisted. -/
def Memory.cons (f : Font) (a : Nat) (b : Byte) (m : Memory) : Memory :=
  if b = powerOnByte f a then m else (a, b) :: m

/-- Write one byte, keeping the canonical form. -/
def Memory.write (f : Font) : Memory → Nat → Byte → Memory
  | [], a, b => Memory.cons f a b []
  | (k, c) :: m, a, b =>
    if a < k then Memory.cons f a b ((k, c) :: m)
    else if a = k then Memory.cons f a b m
    else (k, c) :: Memory.write f m a b

/-- Are the cells at addresses from `lo` up, strictly rising, inside the memory of R38, and none equal to what its
address reads as unlisted? -/
def Memory.wfFrom (f : Font) : Nat → Memory → Bool
  | _, [] => true
  | lo, (k, b) :: m =>
    decide (lo ≤ k) && decide (k < memSize) && decide (b ≠ powerOnByte f k) && Memory.wfFrom f (k + 1) m

/-- The canonical form of memory. -/
def Memory.wf (f : Font) (m : Memory) : Bool := Memory.wfFrom f 0 m

/-- Write bytes at rising addresses. -/
def Memory.writeAll (f : Font) : Memory → Nat → List Byte → Memory
  | m, _, [] => m
  | m, a, b :: bs => Memory.writeAll f (Memory.write f m a b) (a + 1) bs

/-- The byte of MEM at an address, in the core's own font. -/
def State.byte (s : State) (a : Nat) : Byte := s.mem.read s.font a

/-- Is MEM in its canonical form? -/
def State.canonical (s : State) : Bool := s.mem.wf s.font

/-- MEM with bytes written at rising addresses. -/
def State.memWith (s : State) (a : Nat) (bs : List Byte) : Memory := s.mem.writeAll s.font a bs

/-! ### The memory primitives (R12), byte by byte (R47) -/

/-- MemRead: defined for 0 <= a <= ADDR_MAX only (R12). -/
def State.memRead (s : State) (a : Nat) : Except Fault Byte :=
  if a ≤ addrMax then .ok (s.byte a) else .error (.outsideMemory a)

/-- MemWrite: defined for 0 <= a <= ADDR_MAX only (R12). -/
def State.memWrite (s : State) (a : Nat) (b : Byte) : Except Fault State :=
  if a ≤ addrMax then .ok { s with mem := s.mem.write s.font a b } else .error (.outsideMemory a)

/-- `n` bytes read in rising order from `a`. -/
def State.loadBytes (s : State) (a : Nat) : Nat → Except Fault (List Byte)
  | 0 => .ok []
  | n + 1 =>
    match s.memRead a with
    | .error f => .error f
    | .ok b =>
      match s.loadBytes (a + 1) n with
      | .error f => .error f
      | .ok bs => .ok (b :: bs)

/-- The bytes written in rising order from `a`. -/
def State.storeBytes (s : State) (a : Nat) : List Byte → Except Fault State
  | [] => .ok s
  | b :: bs =>
    match s.memWrite a b with
    | .error f => .error f
    | .ok s' => s'.storeBytes (a + 1) bs

/-! ### PC and the stack -/

/-- ADVANCE and the start of EXECUTE (R74, R77): PC is the address after the instruction, `changed` is 0. -/
def State.advance (s : State) : State := { s with pc := s.pc + 2#16, changed := false }

/-- A control transfer. -/
def State.jump (s : State) (target : Word) : State := { s with pc := target }

/-- A skip: an extra PC <- PC + 2 when the condition holds (R14). -/
def State.skipIf (s : State) (c : Bool) : State := if c then { s with pc := s.pc + 2#16 } else s

/-- `STACK_DEPTH` (R25; D5, log 15). -/
def stackDepth : Nat := 16

/-- push(v): append (R11). -/
def State.push (s : State) (ra : Word) : State := { s with stack := s.stack ++ [ra] }

/-- pop(): the last entry, and the state without it; none on an empty stack (R11). -/
def State.pop (s : State) : Option (Word × State) :=
  match s.stack.getLast? with
  | none => none
  | some ra => some (ra, { s with stack := s.stack.dropLast })

/-! ### Fault entry and the way out of a fault -/

/-- Taking a fault (R79, R130): `s` is the state at the START of the step, so every write of the step is discarded
and PC still holds the address of the instruction; only FAULT is written, and the core is HALTED. -/
def State.takeFault (s : State) (cause : FaultCause) (word : Word) (wordValid : Bool) (info : Info) : State :=
  { s with fault := ⟨cause, s.pc, word, wordValid, info⟩ }

/-- `raise Fault(cause, info)` inside the instruction `i` (R13, R70): the recorded word is the instruction's
own (log 10). -/
def State.raise (s : State) (i : Instr) (cause : FaultCause) (info : Info) : Result :=
  .next (s.takeFault cause (encode i) true info)

/-- The core is HALTED (R30, R71). -/
def State.halted (s : State) : Bool := decide (s.fault.cause ≠ .none)

/-- The first address past memory of a range that starts at `base` and reaches past it (R122). -/
def firstPast (base : Nat) : Info := BitVec.ofNat 17 (max base (addrMax + 1))

/-- Does the range of `n` bytes at `base` reach past ADDR_MAX (R123)? An empty range does not. -/
def pastMemory (base n : Nat) : Bool := decide (0 < n) && decide (addrMax < base + n - 1)

/-- `RESET_MEMORY` on this hardware (R142: "takes `reload`"; D11, log 3). -/
def resetPolicy : ResetPolicy := .reload

/-- reset_memory() (R142) under a policy. -/
def State.resetMemory (p : ResetPolicy) (s : State) : Memory :=
  match p with
  | .reload => Memory.writeAll s.font [] progBase s.rom
  | .retain => s.mem
  | .clear => []

/-- reset() (R141), the only way out of HALTED (R131, R143; there is no return-from-fault instruction). KEY, ROM
and the parameter FONT are not changed, and neither is what waits in the model's own `agenda` and `draws` (log 6, 7). -/
def State.doReset (s : State) : State :=
  { State.powerOn s.font with
    mem := s.resetMemory resetPolicy
    key := s.key
    rom := s.rom
    draws := s.draws
    agenda := s.agenda }

end Sys2Proof.Machine
end

