-- ==== Sys2Proof/Machine/Operands.lean ====
section
/-! DEFINITION. The operand forms (30_encoding.md R60, 43_index_memory.md): registers, zero-extended immediates,
blocks of registers, addresses through I, key numbers. -/

namespace Sys2Proof.Machine

/-- V[r] (R11, R15). -/
def State.reg (s : State) (r : Reg) : Byte := s.v[r.val]

/-- V[r] <- b (R11, R15): no register is hardwired. -/
def State.setReg (s : State) (r : Reg) (b : Byte) : State := { s with v := s.v.set r.val b }

/-- VF is V[15] (R16). -/
def vf : Reg := 15

/-- zext_16(NNN) (R60). -/
def zextAddr (nnn : Addr12) : Word := nnn.setWidth 16

/-- zext_16 of a byte (R10). -/
def zextByte (b : Byte) : Word := b.setWidth 16

/-- The address of the first byte an instruction accesses through I (R49: computed exactly). -/
def State.base (s : State) : Nat := s.i.toNat

/-- V0..VX, in order (R108): X + 1 bytes. -/
def State.regsUpTo (s : State) (x : Reg) : List Byte := s.v.toList.take (x.val + 1)

/-- Load registers from `r` up with the bytes, in order (R109). -/
def State.setRegsFrom (s : State) : Nat → List Byte → State
  | _, [] => s
  | r, b :: bs => (if h : r < 16 then s.setReg ⟨r, h⟩ b else s).setRegsFrom (r + 1) bs

/-- KEY[k] == 1 (R11, R29). -/
def State.keyDown (s : State) (k : Nat) : Bool := s.key.getLsbD k

/-- The lowest-indexed pressed key, if any is pressed (R118). -/
def State.lowestKey (s : State) : Option Nat := (List.range 16).find? s.keyDown

/-- The decimal digits of a byte, hundreds first (R107). -/
def bcdDigits (b : Byte) : List Byte :=
  [BitVec.ofNat 8 (b.toNat / 100), BitVec.ofNat 8 (b.toNat / 10 % 10), BitVec.ofNat 8 (b.toNat % 10)]

end Sys2Proof.Machine
end

