-- ==== Sys2Proof/Machine/Flags.lean ====
section
/-! DEFINITION. VF as a flag (10_state.md R32, 42_alu.md R91): each flag is computed from the operand values before
the instruction, and it is written last. -/

namespace Sys2Proof.Machine

/-- A flag as a byte: 1 or 0. -/
def flagByte (c : Bool) : Byte := if c then 1#8 else 0#8

/-- 8XY4: carry out of bit 7 (R98), s > 255 for the exact sum. -/
def carryOut (x y : Byte) : Bool := decide (x.toNat + y.toNat > 255)

/-- 8XY5, 8XY7: no borrow in minuend - subtrahend (R99, R101). -/
def noBorrow (minuend subtrahend : Byte) : Bool := decide (minuend.toNat ≥ subtrahend.toNat)

/-- 8XY6: bit 0 of VY before the shift (R100). -/
def lowBit (y : Byte) : Bool := y.getLsbD 0

/-- 8XYE: bit 7 of VY before the shift (R102). -/
def highBit (y : Byte) : Bool := y.getLsbD 7

/-- FX1E: the exact sum I + VX is above ADDR_MAX (R105; D18). -/
def pastAddressable (i : Word) (x : Byte) : Bool := decide (i.toNat + x.toNat > addrMax)

/-- V[0xF] <- flag. -/
def State.setFlag (s : State) (c : Bool) : State := s.setReg vf (flagByte c)

/-- The result to VX first, the flag to VF last (R91 (d); D15): with X = 0xF the flag wins. -/
def State.setResultFlag (s : State) (x : Reg) (result : Byte) (c : Bool) : State := (s.setReg x result).setFlag c

end Sys2Proof.Machine
end

