-- ==== Sys2Proof/Machine/Alu.lean ====
section
/-! DEFINITION. Register and ALU instructions (42_alu.md). Operands are read before any write; a flag is written
last (R91). No instruction here can fault. -/

namespace Sys2Proof.Machine

/-- 6XNN (R92). -/
def execLdImm (x : Reg) (nn : Byte) (s : State) : Result := .next (s.advance.setReg x nn)

/-- 7XNN (R93): wraps, no flag. -/
def execAddImm (x : Reg) (nn : Byte) (s : State) : Result := .next (s.advance.setReg x (s.reg x + nn))

/-- 8XY0 (R94). -/
def execLdReg (x y : Reg) (s : State) : Result := .next (s.advance.setReg x (s.reg y))

/-- 8XY1 (R95). -/
def execOrReg (x y : Reg) (s : State) : Result := .next (s.advance.setReg x (s.reg x ||| s.reg y))

/-- 8XY2 (R96). -/
def execAndReg (x y : Reg) (s : State) : Result := .next (s.advance.setReg x (s.reg x &&& s.reg y))

/-- 8XY3 (R97). -/
def execXorReg (x y : Reg) (s : State) : Result := .next (s.advance.setReg x (s.reg x ^^^ s.reg y))

/-- 8XY4 (R98). -/
def execAddReg (x y : Reg) (s : State) : Result :=
  .next (s.advance.setResultFlag x (s.reg x + s.reg y) (carryOut (s.reg x) (s.reg y)))

/-- 8XY5 (R99). -/
def execSubReg (x y : Reg) (s : State) : Result :=
  .next (s.advance.setResultFlag x (s.reg x - s.reg y) (noBorrow (s.reg x) (s.reg y)))

/-- 8XY6 (R100): the source is VY. -/
def execShr (x y : Reg) (s : State) : Result :=
  .next (s.advance.setResultFlag x (s.reg y >>> 1) (lowBit (s.reg y)))

/-- 8XY7 (R101). -/
def execSubn (x y : Reg) (s : State) : Result :=
  .next (s.advance.setResultFlag x (s.reg y - s.reg x) (noBorrow (s.reg y) (s.reg x)))

/-- 8XYE (R102): the source is VY. -/
def execShl (x y : Reg) (s : State) : Result :=
  .next (s.advance.setResultFlag x (s.reg y <<< 1) (highBit (s.reg y)))

/-- CXNN (R103): the random byte is the next free draw (R81; log 6). -/
def execRnd (x : Reg) (nn : Byte) (s : State) : Result :=
  .next { s.advance.setReg x (Config.rnd s.draws &&& nn) with draws := s.draws + 1 }

end Sys2Proof.Machine
end

