-- ==== Sys2Proof/Machine/ControlFlow.lean ====
section
/-! DEFINITION. Control flow (41_control_flow.md): return, jump, call, skips, indexed jump. Each meaning starts from
the state at the start of the step (PC = a) and executes against `s.advance` (PC = a + 2, R20, R74; log 12). -/

namespace Sys2Proof.Machine

/-- 00EE (R83). -/
def execRet (s : State) : Result :=
  match s.advance.pop with
  | none => s.raise .ret .stackUnderflow 0#17
  | some (ra, s') => .next (s'.jump ra)

/-- 1NNN (R84). -/
def execJp (nnn : Addr12) (s : State) : Result := .next (s.advance.jump (zextAddr nnn))

/-- 2NNN (R85): the pushed value is the advanced PC. -/
def execCall (nnn : Addr12) (s : State) : Result :=
  if s.stack.length = stackDepth then s.raise (.call nnn) .stackOverflow (BitVec.ofNat 17 stackDepth)
  else .next ((s.advance.push s.advance.pc).jump (zextAddr nnn))

/-- 3XNN (R86). -/
def execSeImm (x : Reg) (nn : Byte) (s : State) : Result := .next (s.advance.skipIf (s.reg x == nn))

/-- 4XNN (R87). -/
def execSneImm (x : Reg) (nn : Byte) (s : State) : Result := .next (s.advance.skipIf (s.reg x != nn))

/-- 5XY0 (R88). -/
def execSeReg (x y : Reg) (s : State) : Result := .next (s.advance.skipIf (s.reg x == s.reg y))

/-- 9XY0 (R89). -/
def execSneReg (x y : Reg) (s : State) : Result := .next (s.advance.skipIf (s.reg x != s.reg y))

/-- BNNN (R90): always V0, no reduction modulo 0x1000. -/
def execJpV0 (nnn : Addr12) (s : State) : Result := .next (s.advance.jump (zextAddr nnn + zextByte (s.reg 0)))

end Sys2Proof.Machine
end

