-- ==== Sys2Proof/Machine/Display.lean ====
section
/-! DEFINITION. The display (44_display.md): clear, and the XOR sprite blitter, row by row and bit by bit as the
pseudocode of R112 gives it. -/

namespace Sys2Proof.Machine

/-- `SPRITE_X_EDGE` on this hardware (R114: "default = wrap"; D16, log 2). -/
def spriteEdge : SpriteEdge := .wrap

/-- FB[x, y] (R11). -/
def Framebuffer.pixel (fb : Framebuffer) (x : Fin 64) (y : Fin 32) : Bool := fb[y.val][x.val]

/-- FB[x, y] <- FB[x, y] ^ 1. -/
def Framebuffer.toggle (fb : Framebuffer) (x : Fin 64) (y : Fin 32) : Framebuffer :=
  fb.set y.val (fb[y.val].set x.val (!fb.pixel x y))

/-- All pixels off (R110). -/
def Framebuffer.off : Framebuffer := Vector.replicate 32 (Vector.replicate 64 false)

/-- What a draw has done so far: the framebuffer, and whether a pixel went from on to off (R113). -/
structure Canvas where
  fb : Framebuffer
  hit : Bool
  deriving DecidableEq, Repr

/-- The column of the bit `c` of a row anchored at `x0`, or none where the bit is not drawn (R114). -/
def spriteColumn (edge : SpriteEdge) (x0 c : Nat) : Option (Fin 64) :=
  match edge with
  | .wrap => some (Fin.ofNat 64 (x0 + c))
  | .clip => if x0 + c ≥ fbW then none else some (Fin.ofNat 64 (x0 + c))

/-- The row of the sprite row `r` anchored at `y0`: rows always wrap (R114). -/
def spriteRow (y0 r : Nat) : Fin 32 := Fin.ofNat 32 (y0 + r)

/-- XOR a 1 bit into one pixel (R112, R113). -/
def Canvas.plot (cv : Canvas) (x : Fin 64) (y : Fin 32) : Canvas :=
  { fb := cv.fb.toggle x y, hit := cv.hit || cv.fb.pixel x y }

/-- One bit of a sprite row, bit 7 of the byte first (R112). -/
def Canvas.drawBit (edge : SpriteEdge) (x0 : Nat) (y : Fin 32) (b : Byte) (cv : Canvas) (c : Nat) : Canvas :=
  if b.getLsbD (7 - c) then
    match spriteColumn edge x0 c with
    | some x => cv.plot x y
    | none => cv
  else cv

/-- One row of a sprite: bits c = 0 .. 7. -/
def Canvas.drawRow (edge : SpriteEdge) (x0 : Nat) (y : Fin 32) (b : Byte) (cv : Canvas) : Canvas :=
  (List.range 8).foldl (Canvas.drawBit edge x0 y b) cv

/-- The rows of a sprite, from row `r` down. -/
def Canvas.drawRows (edge : SpriteEdge) (x0 y0 : Nat) : Nat → List Byte → Canvas → Canvas
  | _, [], cv => cv
  | r, b :: bs, cv => Canvas.drawRows edge x0 y0 (r + 1) bs (cv.drawRow edge x0 (spriteRow y0 r) b)

/-- The whole sprite at an anchor, from a framebuffer, VF cleared first (R113). -/
def drawSprite (edge : SpriteEdge) (x0 y0 : Nat) (bs : List Byte) (fb : Framebuffer) : Canvas :=
  Canvas.drawRows edge x0 y0 0 bs { fb := fb, hit := false }

/-- The anchor column, from VX (R111). -/
def anchorX (x : Byte) : Nat := x.toNat % fbW

/-- The anchor row, from VY (R111). -/
def anchorY (y : Byte) : Nat := y.toNat % fbH

/-- 00E0 (R110). -/
def execCls (s : State) : Result := .next { s.advance with fb := Framebuffer.off, changed := true }

/-- DXYN (R112): VX and VY are read before VF is cleared (R111). -/
def execDrw (x y : Reg) (n : Nibble) (s : State) : Result :=
  if pastMemory s.base n.toNat then s.raise (.drw x y n) .memOutOfRange (firstPast s.base)
  else
    match s.loadBytes s.base n.toNat with
    | .error f => .fault f
    | .ok bs =>
      let cv := drawSprite spriteEdge (anchorX (s.reg x)) (anchorY (s.reg y)) bs s.fb
      .next { s.advance.setFlag cv.hit with fb := cv.fb, changed := true }

end Sys2Proof.Machine
end

