-- ==== Sys2Proof/Machine/IndexMemory.lean ====
section
/-! DEFINITION. Index register and memory instructions (43_index_memory.md). Every memory instruction checks its whole
range before its first access (R76, R123); I never changes as a side effect of an access (D14). -/

namespace Sys2Proof.Machine

/-- ANNN (R104). -/
def execLdI (nnn : Addr12) (s : State) : Result := .next { s.advance with i := zextAddr nnn }

/-- FX1E (R105): I modulo 2^16, VF the range flag of the exact sum, written last. -/
def execAddI (x : Reg) (s : State) : Result :=
  .next (State.setFlag { s.advance with i := s.i + zextByte (s.reg x) } (pastAddressable s.i (s.reg x)))

/-- FX29 (R106): VX is not masked. -/
def execLdF (x : Reg) (s : State) : Result :=
  .next { s.advance with i := BitVec.ofNat 16 ((s.reg x).toNat * glyphBytes) }

/-- FX33 (R107). -/
def execLdB (x : Reg) (s : State) : Result :=
  if pastMemory s.base 3 then s.raise (.ldB x) .memOutOfRange (firstPast s.base)
  else
    match s.advance.storeBytes s.base (bcdDigits (s.reg x)) with
    | .error f => .fault f
    | .ok t => .next t

/-- FX55 (R108). -/
def execStoreRegs (x : Reg) (s : State) : Result :=
  if pastMemory s.base (x.val + 1) then s.raise (.storeRegs x) .memOutOfRange (firstPast s.base)
  else
    match s.advance.storeBytes s.base (s.regsUpTo x) with
    | .error f => .fault f
    | .ok t => .next t

/-- FX65 (R109). -/
def execLoadRegs (x : Reg) (s : State) : Result :=
  if pastMemory s.base (x.val + 1) then s.raise (.loadRegs x) .memOutOfRange (firstPast s.base)
  else
    match s.loadBytes s.base (x.val + 1) with
    | .error f => .fault f
    | .ok bs => .next (s.advance.setRegsFrom 0 bs)

end Sys2Proof.Machine
end

