-- ==== Sys2Proof/Machine/KeypadTimers.lean ====
section
/-! DEFINITION. Keypad and timer instructions (45_keypad_timers.md). -/

namespace Sys2Proof.Machine

/-- EX9E (R116). -/
def execSkp (x : Reg) (s : State) : Result :=
  if (s.reg x).toNat > 0xF then s.raise (.skp x) .keyIndexOutOfRange ((s.reg x).setWidth 17)
  else .next (s.advance.skipIf (s.keyDown (s.reg x).toNat))

/-- EXA1 (R117). -/
def execSknp (x : Reg) (s : State) : Result :=
  if (s.reg x).toNat > 0xF then s.raise (.sknp x) .keyIndexOutOfRange ((s.reg x).setWidth 17)
  else .next (s.advance.skipIf (!s.keyDown (s.reg x).toNat))

/-- FX07 (R119). -/
def execLdVxDt (x : Reg) (s : State) : Result := .next (s.advance.setReg x s.dt)

/-- FX0A (R118): with no key pressed PC goes back to the instruction itself. -/
def execLdVxK (x : Reg) (s : State) : Result :=
  match s.lowestKey with
  | none => .next (s.advance.jump (s.advance.pc - 2#16))
  | some k => .next (s.advance.setReg x (BitVec.ofNat 8 k))

/-- FX15 (R120). -/
def execLdDtVx (x : Reg) (s : State) : Result := .next { s.advance with dt := s.reg x }

/-- FX18 (R121). -/
def execLdStVx (x : Reg) (s : State) : Result := .next { s.advance with st := s.reg x }

end Sys2Proof.Machine
end

