-- ==== Sys2Proof/Machine/Cycle.lean ====
section
/-! DEFINITION. The `step` transaction of the execution unit (40_execution_cycle.md): halted check, FETCH, DECODE,
and the instruction or the no-op; and placing a word where the next fetch reads it. -/

namespace Sys2Proof.Machine

/-- A fetch at PC would reach past memory (R73). -/
def State.fetchPast (s : State) : Bool := decide (s.pc.toNat + 1 > addrMax)

/-- The first address past memory of a failed fetch at `a` (R70, R73). -/
def fetchInfo (a : Nat) : Info := BitVec.ofNat 17 (if a > addrMax then a else a + 1)

/-- Fetch16(PC) (R12, R73): high byte first (R46). -/
def State.fetchWord (s : State) : Except Fault Word :=
  match s.memRead s.pc.toNat with
  | .error f => .error f
  | .ok hi =>
    match s.memRead (s.pc.toNat + 1) with
    | .error f => .error f
    | .ok lo => .ok (wordOfBytes hi lo)

/-- The no-op (R80): nothing beyond ADVANCE. -/
def execNop (s : State) : Result := .next s.advance

/-- DECODE and EXECUTE of a fetched word (R75, R76, R80). -/
def runWord (w : Word) (s : State) : Result :=
  match decode w with
  | some i => exec i s
  | none => execNop s

/-- `step(rnd)` (R70). A HALTED core changes nothing (R72). -/
def executionStep (s : State) : Result :=
  if s.halted then .next s
  else if s.fetchPast then .next (s.takeFault .fetchOutOfRange 0#16 false (fetchInfo s.pc.toNat))
  else
    match s.fetchWord with
    | .error f => .fault f
    | .ok w => runWord w s

/-- Store a word, high byte first, where the next fetch reads it: at PC, or at PROG_BASE with PC set there when PC
lies where nothing can be fetched. -/
def State.placeWord (s : State) (w : Word) : State :=
  let a := if s.fetchPast then progBase else s.pc.toNat
  { s with pc := BitVec.ofNat 16 a, mem := s.memWith a [hiByte w, loByte w] }

end Sys2Proof.Machine
end

