-- ==== Sys2Proof/Machine/Transactions.lean ====
section
/-! DEFINITION. The interface of the core (10_state.md R36): its transactions, what each returns to the host, and
which one is taken next. -/

namespace Sys2Proof.Machine

/-- One timer decremented toward 0 (R26, R134). -/
def countDown (t : Byte) : Byte := if t = 0#8 then 0#8 else t - 1#8

/-- tick() (R134): in RUN and in HALTED alike. -/
def State.tick (s : State) : State := { s with dt := countDown s.dt, st := countDown s.st }

/-- set_keys(k) (R36): all 16 entries at once. -/
def State.setKeys (s : State) (k : BitVec 16) : State := { s with key := k }

/-- Is the image too large to load (R44)? -/
def tooLarge (image : List Byte) : Bool := decide (image.length > progMax)

/-- load(image) (R44): an image that is too large changes nothing. -/
def State.load (s : State) (image : List Byte) : State :=
  if tooLarge image then s
  else { s with mem := s.memWith progBase image, rom := image }

/-- Each transaction's effect (R36, R50). -/
def transact (t : Transaction) (s : State) : Result :=
  match t with
  | .step => executionStep s
  | .tick => .next s.tick
  | .setKeys k => .next (s.setKeys k)
  | .load image => .next (s.load image)
  | .reset => .next s.doReset
  | .readFb => .next s
  | .readSound => .next s
  | .readFault => .next s

/-- What a transaction returns to the host (R36). -/
inductive Response where
  | ok                             -- `load` took the image
  | okStep (changed : Bool)        -- `step` completed (R78)
  | fault (record : FaultRecord)   -- `step` faulted or is halted (R72, R79)
  | tooLarge                       -- `load` refused the image (R44)
  | none                           -- `tick`, `set_keys`, `reset`
  | fb (pixels : Framebuffer)      -- a copy of FB
  | sound (st : Byte)              -- ST (R136)
  | faultRecord (record : FaultRecord)
  deriving DecidableEq, Repr

/-- What the transaction `t` returns, read off the state `s` it left (log 17). -/
def respond (t : Transaction) (s : State) : Response :=
  match t with
  | .step => if s.halted then .fault s.fault else .okStep s.changed
  | .tick => .none
  | .setKeys _ => .none
  | .load image => if tooLarge image then .tooLarge else .ok
  | .reset => .none
  | .readFb => .fb s.fb
  | .readSound => .sound s.st
  | .readFault => .faultRecord s.fault

/-- The transaction taken next and the state it is taken in: the oldest that waits, else the execution unit's step
(R50; log 7). -/
def State.nextTransaction (s : State) : Transaction × State :=
  match s.agenda with
  | [] => (.step, s)
  | t :: rest => (t, { s with agenda := rest })

/-- Take the next transaction. -/
def takeNext (s : State) : Result := transact s.nextTransaction.1 s.nextTransaction.2

end Sys2Proof.Machine
end

