-- ==== Sys2Proof/Machine/Step.lean ====
section
/-! DEFINITION. One step of the whole machine: the next transaction of the total order of 20_memory.md R50. -/

namespace Sys2Proof.Machine

/-- One transaction: the oldest of the agenda, else one instruction of the execution unit. -/
def step (s : State) : Host.Outcome State Fault Refusal := takeNext s

/-- The state `s` with the instruction whose bits are `w` (numbered as spec/opcode_table.json numbers them) where the
next step fetches it, in RUN and with no other transaction waiting, so that the very next step runs it (log 14). -/
def State.withFetchWord (s : State) (nbits w : Nat) : State :=
  { s.placeWord (BitVec.ofNat 16 (w % 2 ^ nbits)) with fault := FaultRecord.clear, agenda := [] }

end Sys2Proof.Machine
end

