-- ==== Sys2Proof/Safety.lean ====
section
/-! DEFINITION. The vocabulary of the claims: what a step fetches, what an instruction leaves unchanged, the spec's
tables of fault causes (R122), of PC (R21), of registers written (R17) and of bytes stored (R47), the pixels a sprite
covers (R112), the invariant of the machine, and the end of a run (R153). Written from the spec's tables in plain
arithmetic, not from the meanings. -/

namespace Sys2Proof.Machine

/-! ### Fetching -/

/-- The word at PC, high byte first (R46, R73). -/
def State.wordAtPc (s : State) : Word := wordOfBytes (s.byte s.pc.toNat) (s.byte (s.pc.toNat + 1))

/-- The next transaction is an execution step, the core is in RUN, and it fetches `w` (R70, R71, R73). -/
abbrev State.Fetches (s : State) (w : Word) : Prop :=
  s.fault.cause = .none ∧ s.agenda = [] ∧ s.pc.toNat ≤ 0xFFE ∧ s.wordAtPc = w

/-! ### Operand fields (R58) -/

/-- The operand fields a format uses, at the bits R58 gives them: X = w[11:8], Y = w[7:4], N = w[3:0], NN = w[7:0],
NNN = w[11:0]. -/
def wordFields (f : Format) (w : Nat) : Fields :=
  match f with
  | .fixed => {}
  | .addr => { nnn := w % 4096 }
  | .regImm => { x := w / 256 % 16, nn := w % 256 }
  | .regReg => { x := w / 256 % 16, y := w / 16 % 16 }
  | .draw => { x := w / 256 % 16, y := w / 16 % 16, n := w % 16 }
  | .regSub => { x := w / 256 % 16 }

/-- The word of `i` matches `pattern` under `mask`, and its operands stand at the bits R58 gives them. -/
def EncodedAs (i : Instr) (pattern mask : Word) : Prop :=
  encode i &&& mask = pattern ∧ i.fields = wordFields i.format (encode i).toNat

/-! ### Frames -/

/-- Every byte of memory reads as before. -/
def SameBytes (s t : State) : Prop := ∀ a : Nat, t.byte a = s.byte a

/-- Every byte of memory outside `n` bytes at `lo` reads as before. -/
def SameBytesOutside (lo n : Nat) (s t : State) : Prop :=
  ∀ a : Nat, a < lo ∨ lo + n ≤ a → t.byte a = s.byte a

/-- Every register outside `w` is as before. -/
def SameRegsBut (w : Reg → Prop) (s t : State) : Prop := ∀ r : Reg, ¬ w r → t.reg r = s.reg r

/-- What no instruction that completes ever changes: KEY, ROM, FAULT, the parameter FONT, and the transactions that
wait. -/
def SameHostSide (s t : State) : Prop :=
  t.key = s.key ∧ t.rom = s.rom ∧ t.fault = s.fault ∧ t.font = s.font ∧ t.agenda = s.agenda

/-- The timers, the framebuffer and the call stack are as before. -/
def SameUnits (s t : State) : Prop := t.dt = s.dt ∧ t.st = s.st ∧ t.fb = s.fb ∧ t.stack = s.stack

/-- Nothing but PC, `changed` and the registers in `w` differs. -/
def OnlyRegs (w : Reg → Prop) (s t : State) : Prop :=
  SameRegsBut w s t ∧ SameBytes s t ∧ SameUnits s t ∧ SameHostSide s t ∧ t.i = s.i ∧ t.draws = s.draws

/-- Nothing but PC and `changed` differs. -/
def OnlyPc (s t : State) : Prop := OnlyRegs (fun _ => False) s t

/-- Nothing but memory, PC and `changed` differs. -/
def OnlyMem (s t : State) : Prop :=
  SameRegsBut (fun _ => False) s t ∧ SameUnits s t ∧ SameHostSide s t ∧ t.i = s.i ∧ t.draws = s.draws

/-- The instruction moved on to the next word and reports no change of the framebuffer (R20, R77). -/
def Advanced (s t : State) : Prop := t.pc = s.pc + 2#16 ∧ t.changed = false

/-! ### The table of fault causes (R122) -/

/-- The cause and the `info` value of the fault an instruction raises in a state, if it raises one (R122, R123). -/
def faultOf (i : Instr) (s : State) : Option (FaultCause × Nat) :=
  match i with
  | .ret => if s.stack = [] then some (.stackUnderflow, 0) else none
  | .call _ => if s.stack.length = 16 then some (.stackOverflow, 16) else none
  | .drw _ _ n =>
    if 0 < n.toNat ∧ s.i.toNat + n.toNat - 1 > 0xFFF then some (.memOutOfRange, max s.i.toNat 0x1000) else none
  | .ldB _ => if s.i.toNat + 2 > 0xFFF then some (.memOutOfRange, max s.i.toNat 0x1000) else none
  | .storeRegs x => if s.i.toNat + x.val > 0xFFF then some (.memOutOfRange, max s.i.toNat 0x1000) else none
  | .loadRegs x => if s.i.toNat + x.val > 0xFFF then some (.memOutOfRange, max s.i.toNat 0x1000) else none
  | .skp x => if (s.reg x).toNat > 0xF then some (.keyIndexOutOfRange, (s.reg x).toNat) else none
  | .sknp x => if (s.reg x).toNat > 0xF then some (.keyIndexOutOfRange, (s.reg x).toNat) else none
  | .cls | .jp _ | .seImm _ _ | .sneImm _ _ | .seReg _ _ | .ldImm _ _ | .addImm _ _ | .ldReg _ _ | .orReg _ _
  | .andReg _ _ | .xorReg _ _ | .addReg _ _ | .subReg _ _ | .shr _ _ | .subn _ _ | .shl _ _ | .sneReg _ _ | .ldI _
  | .jpV0 _ | .rnd _ _ | .ldVxDt _ | .ldVxK _ | .ldDtVx _ | .ldStVx _ | .addI _ | .ldF _ => none

/-- The record a fault with this cause and info leaves, for the word `w` fetched at PC (R30, R79). -/
def faultRecord (s : State) (w : Word) (c : FaultCause × Nat) : FaultRecord :=
  ⟨c.1, s.pc, w, true, BitVec.ofNat 17 c.2⟩

/-! ### The table of PC (R21) -/

/-- PC after a skip instruction fetched at `a`. -/
def skipTo (a : Nat) (c : Prop) [Decidable c] : Nat := if c then a + 4 else a + 2

/-- PC after an instruction that does not fault, fetched at `a = s.pc` (R21). -/
def pcAfter (i : Instr) (s : State) : Nat :=
  match i with
  | .ret => (s.stack.getLastD 0#16).toNat
  | .jp nnn => nnn.toNat
  | .call nnn => nnn.toNat
  | .jpV0 nnn => nnn.toNat + (s.reg 0).toNat
  | .seImm x nn => skipTo s.pc.toNat (s.reg x = nn)
  | .sneImm x nn => skipTo s.pc.toNat (s.reg x ≠ nn)
  | .seReg x y => skipTo s.pc.toNat (s.reg x = s.reg y)
  | .sneReg x y => skipTo s.pc.toNat (s.reg x ≠ s.reg y)
  | .skp x => skipTo s.pc.toNat (s.key.getLsbD (s.reg x).toNat = true)
  | .sknp x => skipTo s.pc.toNat (s.key.getLsbD (s.reg x).toNat = false)
  | .ldVxK _ => if s.key = 0#16 then s.pc.toNat else s.pc.toNat + 2
  | .cls | .ldImm _ _ | .addImm _ _ | .ldReg _ _ | .orReg _ _ | .andReg _ _ | .xorReg _ _ | .addReg _ _ | .subReg _ _
  | .shr _ _ | .subn _ _ | .shl _ _ | .ldI _ | .rnd _ _ | .drw _ _ _ | .ldVxDt _ | .ldDtVx _ | .ldStVx _ | .addI _
  | .ldF _ | .ldB _ | .storeRegs _ | .loadRegs _ => s.pc.toNat + 2

/-! ### The tables of registers written (R17) and bytes stored (R47) -/

/-- The registers an instruction may write (the right column of R17). -/
def writesReg (i : Instr) (r : Reg) : Prop :=
  match i with
  | .ldImm x _ | .addImm x _ | .ldReg x _ | .orReg x _ | .andReg x _ | .xorReg x _ | .rnd x _ | .ldVxDt x
  | .ldVxK x => r = x
  | .addReg x _ | .subReg x _ | .shr x _ | .subn x _ | .shl x _ => r = x ∨ r = vf
  | .drw _ _ _ | .addI _ => r = vf
  | .loadRegs x => r ≤ x
  | .cls | .ret | .jp _ | .call _ | .seImm _ _ | .sneImm _ _ | .seReg _ _ | .sneReg _ _ | .ldI _ | .jpV0 _ | .skp _
  | .sknp _ | .ldDtVx _ | .ldStVx _ | .ldF _ | .ldB _ | .storeRegs _ => False

/-- How many bytes an instruction stores at I (the write rows of R47). -/
def storesBytes (i : Instr) : Nat :=
  match i with
  | .ldB _ => 3
  | .storeRegs x => x.val + 1
  | .cls | .ret | .jp _ | .call _ | .seImm _ _ | .sneImm _ _ | .seReg _ _ | .ldImm _ _ | .addImm _ _ | .ldReg _ _
  | .orReg _ _ | .andReg _ _ | .xorReg _ _ | .addReg _ _ | .subReg _ _ | .shr _ _ | .subn _ _ | .shl _ _
  | .sneReg _ _ | .ldI _ | .jpV0 _ | .rnd _ _ | .drw _ _ _ | .skp _ | .sknp _ | .ldVxDt _ | .ldVxK _ | .ldDtVx _
  | .ldStVx _ | .addI _ | .ldF _ | .loadRegs _ => 0

/-! ### Sprites (R112) -/

/-- The 1-bits of a sprite of `n` rows, `row r` being the byte of row r, at the anchor (x0, y0), cover the pixel
(px, py): the mask M of R115. Rows wrap; columns wrap or clip (R114). -/
def Covers (edge : SpriteEdge) (x0 y0 n : Nat) (row : Nat → Byte) (px : Fin 64) (py : Fin 32) : Prop :=
  ∃ r < n, ∃ c < 8, (row r).getLsbD (7 - c) = true ∧ py.val = (y0 + r) % 32 ∧
    match edge with
    | .wrap => px.val = (x0 + c) % 64
    | .clip => px.val = x0 + c

/-- `fb'` is `fb` with the pixels of `m` inverted (R115 (a)). -/
def XorsMask (m : Fin 64 → Fin 32 → Prop) (fb fb' : Framebuffer) : Prop :=
  ∀ px py, (m px py → fb'.pixel px py = !fb.pixel px py) ∧ (¬ m px py → fb'.pixel px py = fb.pixel px py)

/-- The pixels DXYN covers in a state: rows from MEM[I + r], anchor (VX mod 64, VY mod 32), columns wrapping
(R111, R112, R114 with the default `wrap`). -/
def drawMask (x y : Reg) (n : Nibble) (s : State) : Fin 64 → Fin 32 → Prop :=
  Covers .wrap ((s.reg x).toNat % 64) ((s.reg y).toNat % 32) n.toNat (fun r => s.byte (s.i.toNat + r))

/-! ### The invariant of the machine -/

/-- What holds at power-on and is kept by every transaction, whatever the host does. -/
structure State.Inv (s : State) : Prop where
  /-- MEM is in its canonical form, inside 0x000..0xFFF (R38). -/
  mem_wf : s.canonical = true
  /-- STACK holds at most STACK_DEPTH entries (R25). -/
  stack_le : s.stack.length ≤ 16
  /-- A return address is at most 0x1000 (R23). -/
  stack_addr : ∀ ra ∈ s.stack, ra.toNat ≤ 0x1000
  /-- PC is at most 0x10FE (R23). -/
  pc_le : s.pc.toNat ≤ 0x10FE
  /-- ROM is at most PROG_MAX bytes (R31). -/
  rom_le : s.rom.length ≤ 3584
  /-- In RUN the FAULT record is clear (R37, R71). -/
  run_clear : s.fault.cause = .none → s.fault = FaultRecord.clear
  /-- In HALTED PC still holds the address the record names (R79). -/
  halted_pc : s.fault.cause ≠ .none → s.fault.pc = s.pc
  /-- The word is recorded for every fault but a fetch fault (R30). -/
  halted_word : s.fault.cause ≠ .none → (s.fault.wordValid = false ↔ s.fault.cause = .fetchOutOfRange)

/-! ### The end of a run (R153) -/

/-- A run has ended normally: no fault, and the word at PC is a jump to itself. -/
abbrev State.EndedNormally (s : State) : Prop :=
  s.fault.cause = .none ∧ s.pc.toNat ≤ 0xFFE ∧ s.wordAtPc.toNat = 0x1000 + s.pc.toNat

/-- Any number of ticks. -/
def State.ticks (s : State) : Nat → State
  | 0 => s
  | n + 1 => (s.ticks n).tick

end Sys2Proof.Machine
end

