-- ==== Sys2Proof/Certificates/Slice0/Obligations.lean ====
section
/-! DEFINITION. The statements for the provers, from the numbered rules of the spec. -/

open Sys2Proof Sys2Proof.Machine

/-! ### Encoding and decoding (30_encoding.md) -/

/-- O1. Words of the spec's own examples and vectors decode as the spec says, under both values of DECODE_5_9
(R61, R63, R65; 95_test_vectors.md). -/
def Obligations.SpecWordsDecode : Prop :=
  ∀ p : DecodePolicy,
    decodeWith p 0x00E0#16 = some .cls ∧ decodeWith p 0x00EE#16 = some .ret ∧
    decodeWith p 0x1234#16 = some (.jp 0x234#12) ∧ decodeWith p 0x2210#16 = some (.call 0x210#12) ∧
    decodeWith p 0x3305#16 = some (.seImm 3 0x05#8) ∧ decodeWith p 0x9120#16 = some (.sneReg 1 2) ∧
    decodeWith p 0x6A9C#16 = some (.ldImm 0xA 0x9C#8) ∧ decodeWith p 0x812E#16 = some (.shl 1 2) ∧
    decodeWith p 0xA300#16 = some (.ldI 0x300#12) ∧ decodeWith p 0xBF80#16 = some (.jpV0 0xF80#12) ∧
    decodeWith p 0xD012#16 = some (.drw 0 1 2#4) ∧ decodeWith p 0xE59E#16 = some (.skp 5) ∧
    decodeWith p 0xF30A#16 = some (.ldVxK 3) ∧ decodeWith p 0xFA33#16 = some (.ldB 0xA) ∧
    decodeWith p 0x0123#16 = none ∧ decodeWith p 0x8008#16 = none ∧ decodeWith p 0xFFFF#16 = none

/-- O2. Decoding the encoding of any instruction gives it back, with every operand at every value (R58, R61). -/
def Obligations.DecodeOfEncodeIsTheInstruction : Prop :=
  ∀ (p : DecodePolicy) (i : Instr), decodeWith p (encode i) = some i

/-- O3. R62, R75: the decoder selects the row the word matches, with the operand fields at the bits of R58, and the
no-op exactly when no row matches. -/
def Obligations.DecoderSelectsTheMatchingRow : Prop :=
  ∀ (p : DecodePolicy) (w : Word),
    (∀ i, decodeWith p w = some i → (∃ r ∈ opcodeMap p, r.mnemonic = i.mnemonic ∧ r.hits w = true) ∧
      i.fields = wordFields i.format w.toNat) ∧
    (decodeWith p w = none ↔ ∀ r ∈ opcodeMap p, r.hits w = false)

/-- O4. R61: the rows are pairwise disjoint, no word matches two rows. -/
def Obligations.AtMostOneRowMatches : Prop :=
  ∀ (p : DecodePolicy) (w : Word), ∀ r ∈ opcodeMap p, ∀ q ∈ opcodeMap p,
    r.hits w = true → q.hits w = true → r = q

/-- O5. No bit of a decoded word is dropped: under `strict`, encoding what a word decodes to gives the word. -/
def Obligations.EncodeOfDecodeIsTheWord : Prop :=
  ∀ (w : Word) (i : Instr), decodeWith .strict w = some i → encode i = w

/-- O6. R64: 5XYn and 9XYn with n != 0 are unassigned under `strict` and behave as 5XY0 and 9XY0 under `ignore`; with
n = 0 the parameter does not matter, and it matters for no other group. The parameter is the spec's open point D13
(log 1). -/
def Obligations.LowNibbleOfGroups5And9 : Prop :=
  ∀ w : Word,
    (opField w = 0x5#4 → decodeWith .ignore w = some (.seReg (xField w) (yField w)) ∧
      decodeWith .strict w = if nField w = 0#4 then some (.seReg (xField w) (yField w)) else none) ∧
    (opField w = 0x9#4 → decodeWith .ignore w = some (.sneReg (xField w) (yField w)) ∧
      decodeWith .strict w = if nField w = 0#4 then some (.sneReg (xField w) (yField w)) else none) ∧
    (opField w ≠ 0x5#4 → opField w ≠ 0x9#4 → decodeWith .ignore w = decodeWith .strict w)

/-! ### The step (40_execution_cycle.md) -/

/-- O7. A step runs the decoded instruction: when no transaction waits, the core is in RUN and the word at PC decodes
to `i`, the step is `exec i` at that very state (each meaning makes the PC advance of R74 itself, log 12). -/
def Obligations.StepRunsTheDecodedInstruction : Prop :=
  ∀ (s : State) (w : Word) (i : Instr), s.Fetches w → decode w = some i → step s = exec i s

/-- O8. R80: a word that matches no row of R61 only advances PC by 2, and reports no change. -/
def Obligations.UnassignedWordOnlyAdvances : Prop :=
  ∀ (s : State) (w : Word), s.Fetches w → (∀ r ∈ opcodeMap decodePolicy, r.hits w = false) →
    step s = .next { s with pc := s.pc + 2#16, changed := false }

/-- O9. R72 (the spec's own decision D26): a step on a HALTED core returns the fault recorded earlier and changes no
state. -/
def Obligations.HaltedStepChangesNothing : Prop :=
  ∀ s : State, s.agenda = [] → s.fault.cause ≠ .none →
    step s = .next s ∧ respond .step s = .fault s.fault

/-- O10. R73: a fetch reads MEM[PC] as the high byte and MEM[PC + 1] as the low byte, PC odd or even; with
PC > 0xFFE the step raises FETCH_OUT_OF_RANGE with the first address past memory (the spec's own decisions D3, D4,
D8). -/
def Obligations.FetchReadsTwoBytesOrFaults : Prop :=
  ∀ s : State,
    (s.pc.toNat ≤ 0xFFE → ∃ w : Word, s.fetchWord = .ok w ∧
      w.toNat = (s.byte s.pc.toNat).toNat * 256 + (s.byte (s.pc.toNat + 1)).toNat) ∧
    (s.pc.toNat > 0xFFE → s.agenda = [] → s.fault.cause = .none →
      step s = .next { s with fault := ⟨.fetchOutOfRange, s.pc, 0#16, false,
        BitVec.ofNat 17 (if s.pc.toNat > 0xFFF then s.pc.toNat else s.pc.toNat + 1)⟩ })

/-- O11. Every instruction in every state, and every step of every agent, answers a next state: no access ever
reaches a byte outside memory (R12, R123) and no encoding is illegal (R66). That a fault of the spec, after which the
step has not completed (R70, R71), is a next state of the model is the model's own choice (log 9), and that the stop
outsideMemory is never answered is deduced (log 13). -/
def Obligations.EveryStepAnswersANextState : Prop :=
  (∀ (i : Instr) (s : State), ∃ t, exec i s = .next t) ∧ ∀ s : State, ∃ t, step s = .next t

/-- O12. R79: a step that faults makes no change to V, I, PC, STACK, DT, ST, FB, MEM or KEY; only FAULT is written,
with PC and the word fetched (0x0000 and word_valid = 0 for a fetch fault). The spec's own decisions D7, D8. -/
def Obligations.FaultsArePrecise : Prop :=
  ∀ s t : State, s.agenda = [] → s.fault.cause = .none → step s = .next t → t.fault.cause ≠ .none →
    t = { s with fault := t.fault } ∧ t.fault.pc = s.pc ∧
    (if s.pc.toNat > 0xFFE then t.fault.cause = .fetchOutOfRange ∧ t.fault.word = 0#16 ∧ t.fault.wordValid = false ∧
       t.fault.info = BitVec.ofNat 17 (max s.pc.toNat 0x1000)
     else t.fault.word = s.wordAtPc ∧ t.fault.wordValid = true ∧
       ∃ i c, decode s.wordAtPc = some i ∧ faultOf i s = some c ∧ t.fault.cause = c.1 ∧
         t.fault.info = BitVec.ofNat 17 c.2)

/-- O13. R122: each instruction raises the fault the table gives it, with the table's `info`, exactly when the table's
condition holds; otherwise FAULT is not written. The codes of the causes and the record are the spec's own decision D8,
that only FAULT changes D7, the bounded stack D6, the key number fault D17 (logs 9, 15). -/
def Obligations.FaultTable : Prop :=
  [FaultCause.none, .stackUnderflow, .stackOverflow, .memOutOfRange, .fetchOutOfRange, .keyIndexOutOfRange].map
    FaultCause.code = [0, 1, 2, 3, 4, 5] ∧
  ∀ (i : Instr) (s : State),
    (∀ c, faultOf i s = some c → exec i s = .next { s with fault := faultRecord s (encode i) c }) ∧
    (faultOf i s = none → ∃ t, exec i s = .next t ∧ t.fault = s.fault)

/-- O14. R21 (a table the spec derives): how each instruction, and each unassigned word, leaves PC when fetched at
`a = PC`, and when it faults. -/
def Obligations.PcAfterEachInstruction : Prop :=
  (∀ (i : Instr) (s : State), s.pc.toNat ≤ 0xFFE →
    ∃ t, exec i s = .next t ∧ (faultOf i s = none → t.pc.toNat = pcAfter i s) ∧
      (faultOf i s ≠ none → t.pc = s.pc)) ∧
  ∀ (s : State) (w : Word), s.Fetches w → decode w = none → ∃ t, step s = .next t ∧ t.pc.toNat = s.pc.toNat + 2

/-- O15. R77: a step that completes reports `changed` = 1 exactly when it executed 00E0 or DXYN. That the model keeps
`changed` in a field of State is its own choice (log 8). -/
def Obligations.ChangedOnlyByClearAndDraw : Prop :=
  ∀ s t : State, s.agenda = [] → s.fault.cause = .none → step s = .next t → t.fault.cause = .none →
    respond .step t = .okStep t.changed ∧
    (t.changed = true ↔ decode s.wordAtPc = some .cls ∨ ∃ x y n, decode s.wordAtPc = some (.drw x y n))

/-! ### The invariant, reset and the host's transactions -/

/-- O16. The invariant holds at power-on. Which of its clauses are choices is said at O17. -/
def Obligations.InvariantAtReset : Prop := State.reset.Inv

/-- O17. Every step, of every agent, keeps the invariant: memory canonical and inside 0x000..0xFFF, at most 16 return
addresses each at most 0x1000, PC at most 0x10FE (R23), ROM at most 3584 bytes, FAULT clear in RUN and naming PC in
HALTED. Choices, not the source's words: the canonical form of memory is the model's (log 11); the stack's depth is
the spec's D5, D6 (log 15); the 16-bit PC, which its bound and the return addresses' rest on, is D2, D3 (log 16); the
bound of ROM is D12; the HALTED record, left by a fault that is a next state, is D7, D8 (log 9). -/
def Obligations.InvariantKeptByEveryStep : Prop :=
  ∀ s t : State, s.Inv → step s = .next t → t.Inv

/-- O18. R144 and the power-on column of R37, for every FONT a core may be built with; and the default FONT the
core's own power-on state takes, the 80 bytes of R41, glyph by glyph. The zeros of V, I, DT, ST and FB and the released
keys are the spec's own decisions D10, D22, D34 (log 4), and the bytes of FONT its own decision D9 (log 5). -/
def Obligations.PowerOnState : Prop :=
  (∀ f : Font,
    (∀ r, (State.powerOn f).reg r = 0x00#8) ∧ (State.powerOn f).i = 0x0000#16 ∧ (State.powerOn f).pc = 0x200#16 ∧
    (State.powerOn f).stack = [] ∧ (State.powerOn f).dt = 0x00#8 ∧ (State.powerOn f).st = 0x00#8 ∧
    (∀ x y, (State.powerOn f).fb.pixel x y = false) ∧ (∀ k < 16, (State.powerOn f).key.getLsbD k = false) ∧
    (∀ a : Nat, (State.powerOn f).byte a = if h : a < 80 then f[a] else 0x00#8) ∧
    (State.powerOn f).rom = [] ∧ (State.powerOn f).fault = ⟨.none, 0#16, 0#16, false, 0#17⟩) ∧
  State.reset = State.powerOn State.reset.font ∧
  State.reset.font.toList =
    [0xF0#8, 0x90#8, 0x90#8, 0x90#8, 0xF0#8] ++ [0x20#8, 0x60#8, 0x20#8, 0x20#8, 0x70#8] ++
    [0xF0#8, 0x10#8, 0xF0#8, 0x80#8, 0xF0#8] ++ [0xF0#8, 0x10#8, 0xF0#8, 0x10#8, 0xF0#8] ++
    [0x90#8, 0x90#8, 0xF0#8, 0x10#8, 0x10#8] ++ [0xF0#8, 0x80#8, 0xF0#8, 0x10#8, 0xF0#8] ++
    [0xF0#8, 0x80#8, 0xF0#8, 0x90#8, 0xF0#8] ++ [0xF0#8, 0x10#8, 0x20#8, 0x40#8, 0x40#8] ++
    [0xF0#8, 0x90#8, 0xF0#8, 0x90#8, 0xF0#8] ++ [0xF0#8, 0x90#8, 0xF0#8, 0x10#8, 0xF0#8] ++
    [0xF0#8, 0x90#8, 0xF0#8, 0x90#8, 0x90#8] ++ [0xE0#8, 0x90#8, 0xE0#8, 0x90#8, 0xE0#8] ++
    [0xF0#8, 0x80#8, 0x80#8, 0x80#8, 0xF0#8] ++ [0xE0#8, 0x90#8, 0x90#8, 0x90#8, 0xE0#8] ++
    [0xF0#8, 0x80#8, 0xF0#8, 0x80#8, 0xF0#8] ++ [0xF0#8, 0x80#8, 0xF0#8, 0x80#8, 0x80#8]

/-- O19. R141, R142, R143: reset() gives every field its startup value, clears FAULT, reloads memory (zeros, FONT, ROM at
0x200) and changes neither KEY nor ROM; the three memory policies. The spec's own decisions D10, D11, D22 (logs 3, 4). -/
def Obligations.ResetTransaction : Prop :=
  ∀ s : State, s.rom.length ≤ 3584 → ∃ t, transact .reset s = .next t ∧
    (∀ r, t.reg r = 0x00#8) ∧ t.i = 0#16 ∧ t.pc = 0x200#16 ∧ t.stack = [] ∧ t.dt = 0#8 ∧ t.st = 0#8 ∧
    (∀ x y, t.fb.pixel x y = false) ∧ t.fault = ⟨.none, 0#16, 0#16, false, 0#17⟩ ∧
    t.key = s.key ∧ t.rom = s.rom ∧ t.font = s.font ∧ t.agenda = s.agenda ∧ t.draws = s.draws ∧
    t.mem = s.resetMemory .reload ∧
    (∀ a : Nat, (s.resetMemory .reload).read s.font a =
      if 0x200 ≤ a ∧ a < 0x200 + s.rom.length then s.rom.getD (a - 0x200) 0#8
      else if h : a < 80 then s.font[a] else 0x00#8) ∧
    (∀ a : Nat, (s.resetMemory .retain).read s.font a = s.byte a) ∧
    (∀ a : Nat, (s.resetMemory .clear).read s.font a = if h : a < 80 then s.font[a] else 0x00#8)

/-- O20. R44, R45: load of at most 3584 bytes copies the image verbatim to 0x200 and keeps it as ROM, changing
nothing else; a larger image is refused with TOO_LARGE and changes nothing (the spec's own decision D12). -/
def Obligations.LoadTransaction : Prop :=
  ∀ (s : State) (image : List Byte),
    (image.length > 3584 → transact (.load image) s = .next s ∧ respond (.load image) s = .tooLarge) ∧
    (image.length ≤ 3584 → s.canonical = true → ∃ t, transact (.load image) s = .next t ∧
      respond (.load image) t = .ok ∧ t.rom = image ∧
      (∀ j (h : j < image.length), t.byte (0x200 + j) = image[j]) ∧
      SameBytesOutside 0x200 image.length s t ∧ t = { s with mem := t.mem, rom := image })

/-- O21. R134: a tick decrements each timer by 1, never below 0, and changes nothing else, in RUN and in HALTED
(the spec's own decisions D20, D25). -/
def Obligations.TickTransaction : Prop :=
  ∀ s : State, ∃ t, transact .tick s = .next t ∧ t.dt.toNat = s.dt.toNat - 1 ∧ t.st.toNat = s.st.toNat - 1 ∧
    t = { s with dt := t.dt, st := t.st }

/-- O22. R29, R36: set_keys writes all 16 keys and nothing else; the reads return FB, ST and FAULT and have no
effect (the spec's own decision D1). -/
def Obligations.KeysAndReads : Prop :=
  ∀ (s : State) (k : BitVec 16),
    transact (.setKeys k) s = .next { s with key := k } ∧
    (transact .readFb s = .next s ∧ respond .readFb s = .fb s.fb) ∧
    (transact .readSound s = .next s ∧ respond .readSound s = .sound s.st) ∧
    (transact .readFault s = .next s ∧ respond .readFault s = .faultRecord s.fault)

/-- O23. R50 as the model states it (the agenda is the model's own, log 7): each step takes exactly one transaction, the
oldest that waits; with none waiting it is the execution unit's. -/
def Obligations.OneTransactionAtATime : Prop :=
  (∀ (s : State) (t : Transaction) (rest : List Transaction), s.agenda = t :: rest →
    step s = transact t { s with agenda := rest }) ∧
  ∀ s : State, s.agenda = [] → step s = transact .step s

/-- O24. R82: an execution step changes neither KEY nor ROM, and the timers only by FX15 and FX18. -/
def Obligations.StepKeepsKeysRomAndTimers : Prop :=
  ∀ s t : State, transact .step s = .next t →
    t.key = s.key ∧ t.rom = s.rom ∧
    (t.dt = s.dt ∨ ∃ x, decode s.wordAtPc = some (.ldDtVx x)) ∧
    (t.st = s.st ∨ ∃ x, decode s.wordAtPc = some (.ldStVx x))

/-- O25. R146: a core in RUN over zero bytes advances by no-ops two bytes at a time, and at 0x1000 the fetch faults
(the fault is the spec's own decision D3). -/
def Obligations.ZeroBytesRunToTheFetchFault : Prop :=
  ∀ (k : Nat) (s : State), s.agenda = [] → s.fault.cause = .none → s.changed = false →
    s.pc.toNat + 2 * k ≤ 0x1000 → (∀ a, s.pc.toNat ≤ a → a < 0x1000 → s.byte a = 0x00#8) →
    Host.Core.run core k s = .next { s with pc := s.pc + BitVec.ofNat 16 (2 * k) } ∧
    (s.pc.toNat + 2 * k = 0x1000 → Host.Core.run core (k + 1) s =
      .next { s with pc := 0x1000#16, fault := ⟨.fetchOutOfRange, 0x1000#16, 0#16, false, 0x1000#17⟩ })

/-- O26. R153 (the spec's own decision D35): from a state that has ended normally a step returns Ok(0) and changes
nothing (the model's own variable `changed` aside, log 8). -/
def Obligations.SelfJumpEndsARun : Prop :=
  ∀ s : State, s.agenda = [] → s.EndedNormally →
    step s = .next { s with changed := false } ∧ respond .step { s with changed := false } = .okStep false

/-! ### Control flow (41_control_flow.md) -/

/-- O27. R83: 00EE pops the last return address into PC; on an empty stack it raises STACK_UNDERFLOW
(the record is the spec's own decisions D7, D8). -/
def Obligations.ReturnPopsTheStack : Prop :=
  encode .ret = 0x00EE#16 ∧ ∀ s : State,
    (s.stack = [] → exec .ret s = .next { s with fault := ⟨.stackUnderflow, s.pc, 0x00EE#16, true, 0#17⟩ }) ∧
    (∀ (st : List Word) (ra : Word), s.stack = st ++ [ra] →
      ∃ t, exec .ret s = .next t ∧ t.pc = ra ∧ t.changed = false ∧ OnlyPc { s with stack := st } t)

/-- O28. R84: 1NNN sets PC to exactly NNN. -/
def Obligations.JumpSetsPc : Prop :=
  ∀ (nnn : Addr12) (s : State), EncodedAs (.jp nnn) 0x1000#16 0xF000#16 ∧
    ∃ t, exec (.jp nnn) s = .next t ∧ t.pc.toNat = nnn.toNat ∧ t.changed = false ∧ OnlyPc s t

/-- O29. R85: 2NNN pushes the advanced PC, a + 2, and jumps; on a stack of 16 entries it raises STACK_OVERFLOW
(the depth and the fault are the spec's own decisions D5, D6, log 15; the record, and that only FAULT changes, D7, D8,
log 9). -/
def Obligations.CallPushesTheAdvancedPc : Prop :=
  ∀ (nnn : Addr12) (s : State), EncodedAs (.call nnn) 0x2000#16 0xF000#16 ∧
    (s.stack.length = 16 →
      exec (.call nnn) s = .next { s with fault := ⟨.stackOverflow, s.pc, encode (.call nnn), true, 16#17⟩ }) ∧
    (s.stack.length < 16 → ∃ t, exec (.call nnn) s = .next t ∧ t.pc.toNat = nnn.toNat ∧ t.changed = false ∧
      OnlyPc { s with stack := s.stack ++ [s.pc + 2#16] } t)

/-- O30. R86, R87: 3XNN and 4XNN skip the next word when VX equals, differs from NN. -/
def Obligations.SkipsOnImmediate : Prop :=
  ∀ (x : Reg) (nn : Byte) (s : State),
    EncodedAs (.seImm x nn) 0x3000#16 0xF000#16 ∧ EncodedAs (.sneImm x nn) 0x4000#16 0xF000#16 ∧
    (∃ t, exec (.seImm x nn) s = .next t ∧ t.pc = (if s.reg x = nn then s.pc + 4#16 else s.pc + 2#16) ∧
      t.changed = false ∧ OnlyPc s t) ∧
    (∃ t, exec (.sneImm x nn) s = .next t ∧ t.pc = (if s.reg x = nn then s.pc + 2#16 else s.pc + 4#16) ∧
      t.changed = false ∧ OnlyPc s t)

/-- O31. R88, R89: 5XY0 and 9XY0 skip the next word when VX and VY are equal, differ. -/
def Obligations.SkipsOnRegisters : Prop :=
  ∀ (x y : Reg) (s : State),
    EncodedAs (.seReg x y) 0x5000#16 0xF00F#16 ∧ EncodedAs (.sneReg x y) 0x9000#16 0xF00F#16 ∧
    mask59 .strict = 0xF00F#16 ∧ mask59 .ignore = 0xF000#16 ∧
    (∃ t, exec (.seReg x y) s = .next t ∧ t.pc = (if s.reg x = s.reg y then s.pc + 4#16 else s.pc + 2#16) ∧
      t.changed = false ∧ OnlyPc s t) ∧
    (∃ t, exec (.sneReg x y) s = .next t ∧ t.pc = (if s.reg x = s.reg y then s.pc + 2#16 else s.pc + 4#16) ∧
      t.changed = false ∧ OnlyPc s t)

/-- O32. R90: BNNN jumps to NNN + V0, not reduced modulo 0x1000, always V0. That PC holds the whole sum rests on the
16-bit PC, the spec's own decision D2 (log 16). -/
def Obligations.IndexedJumpAddsV0 : Prop :=
  ∀ (nnn : Addr12) (s : State), EncodedAs (.jpV0 nnn) 0xB000#16 0xF000#16 ∧
    ∃ t, exec (.jpV0 nnn) s = .next t ∧ t.pc.toNat = nnn.toNat + (s.reg 0).toNat ∧ t.changed = false ∧ OnlyPc s t

/-- O33. A call followed, later, by a return with the same stack comes back to the word after the call and leaves the
stack as it was before the call (R83, R85). -/
def Obligations.ReturnUndoesCall : Prop :=
  ∀ (nnn : Addr12) (s t u : State), s.stack.length < 16 → exec (.call nnn) s = .next t → u.stack = t.stack →
    ∃ w, exec .ret u = .next w ∧ w.pc = s.pc + 2#16 ∧ w.stack = s.stack

/-! ### Registers and ALU (42_alu.md) -/

/-- O34. R92, R93: 6XNN loads NN; 7XNN adds NN modulo 256 and sets no flag. -/
def Obligations.LoadAndAddImmediate : Prop :=
  ∀ (x : Reg) (nn : Byte) (s : State),
    EncodedAs (.ldImm x nn) 0x6000#16 0xF000#16 ∧ EncodedAs (.addImm x nn) 0x7000#16 0xF000#16 ∧
    (∃ t, exec (.ldImm x nn) s = .next t ∧ t.reg x = nn ∧ OnlyRegs (· = x) s t ∧ Advanced s t) ∧
    (∃ t, exec (.addImm x nn) s = .next t ∧ (t.reg x).toNat = ((s.reg x).toNat + nn.toNat) % 256 ∧
      OnlyRegs (· = x) s t ∧ Advanced s t)

/-- O35. R94, R95, R96, R97: copy, OR, AND, XOR; VF is unchanged unless X = 0xF. -/
def Obligations.CopyAndLogic : Prop :=
  ∀ (x y : Reg) (s : State),
    EncodedAs (.ldReg x y) 0x8000#16 0xF00F#16 ∧ EncodedAs (.orReg x y) 0x8001#16 0xF00F#16 ∧
    EncodedAs (.andReg x y) 0x8002#16 0xF00F#16 ∧ EncodedAs (.xorReg x y) 0x8003#16 0xF00F#16 ∧
    (∃ t, exec (.ldReg x y) s = .next t ∧ t.reg x = s.reg y ∧ OnlyRegs (· = x) s t ∧ Advanced s t) ∧
    (∃ t, exec (.orReg x y) s = .next t ∧
      (∀ k, (t.reg x).getLsbD k = ((s.reg x).getLsbD k || (s.reg y).getLsbD k)) ∧
      OnlyRegs (· = x) s t ∧ Advanced s t) ∧
    (∃ t, exec (.andReg x y) s = .next t ∧
      (∀ k, (t.reg x).getLsbD k = ((s.reg x).getLsbD k && (s.reg y).getLsbD k)) ∧
      OnlyRegs (· = x) s t ∧ Advanced s t) ∧
    (∃ t, exec (.xorReg x y) s = .next t ∧
      (∀ k, (t.reg x).getLsbD k = ((s.reg x).getLsbD k ^^ (s.reg y).getLsbD k)) ∧
      OnlyRegs (· = x) s t ∧ Advanced s t)

/-- O36. R98: 8XY4 adds modulo 256; VF is the carry, and wins over the result when X = 0xF (the order is the
spec's own decision D15). -/
def Obligations.AddSetsCarry : Prop :=
  ∀ (x y : Reg) (s : State), EncodedAs (.addReg x y) 0x8004#16 0xF00F#16 ∧
    ∃ t, exec (.addReg x y) s = .next t ∧
      (x ≠ vf → (t.reg x).toNat = ((s.reg x).toNat + (s.reg y).toNat) % 256) ∧
      (t.reg vf).toNat = (if (s.reg x).toNat + (s.reg y).toNat > 255 then 1 else 0) ∧
      OnlyRegs (fun r => r = x ∨ r = vf) s t ∧ Advanced s t

/-- O37. R99, R101: 8XY5 is VX - VY, 8XY7 is VY - VX, modulo 256; VF is 1 when there is no borrow, and
wins (the order is the spec's own decision D15). -/
def Obligations.SubtractSetsNoBorrow : Prop :=
  ∀ (x y : Reg) (s : State),
    EncodedAs (.subReg x y) 0x8005#16 0xF00F#16 ∧ EncodedAs (.subn x y) 0x8007#16 0xF00F#16 ∧
    (∃ t, exec (.subReg x y) s = .next t ∧
      (x ≠ vf → (t.reg x).toNat = ((s.reg x).toNat + 256 - (s.reg y).toNat) % 256) ∧
      (t.reg vf).toNat = (if (s.reg x).toNat ≥ (s.reg y).toNat then 1 else 0) ∧
      OnlyRegs (fun r => r = x ∨ r = vf) s t ∧ Advanced s t) ∧
    (∃ t, exec (.subn x y) s = .next t ∧
      (x ≠ vf → (t.reg x).toNat = ((s.reg y).toNat + 256 - (s.reg x).toNat) % 256) ∧
      (t.reg vf).toNat = (if (s.reg y).toNat ≥ (s.reg x).toNat then 1 else 0) ∧
      OnlyRegs (fun r => r = x ∨ r = vf) s t ∧ Advanced s t)

/-- O38. R100, R102: 8XY6 and 8XYE shift VY, not VX; VF is the bit shifted out, and wins (the order is the
spec's own decision D15). -/
def Obligations.ShiftsReadVy : Prop :=
  ∀ (x y : Reg) (s : State),
    EncodedAs (.shr x y) 0x8006#16 0xF00F#16 ∧ EncodedAs (.shl x y) 0x800E#16 0xF00F#16 ∧
    (∃ t, exec (.shr x y) s = .next t ∧ (x ≠ vf → (t.reg x).toNat = (s.reg y).toNat / 2) ∧
      (t.reg vf).toNat = (s.reg y).toNat % 2 ∧ OnlyRegs (fun r => r = x ∨ r = vf) s t ∧ Advanced s t) ∧
    (∃ t, exec (.shl x y) s = .next t ∧ (x ≠ vf → (t.reg x).toNat = (s.reg y).toNat * 2 % 256) ∧
      (t.reg vf).toNat = (s.reg y).toNat / 128 ∧ OnlyRegs (fun r => r = x ∨ r = vf) s t ∧ Advanced s t)

/-- O39. R103: CXNN writes the random byte ANDed with NN. The byte is a free value (log 6): this holds for every
byte it may be. -/
def Obligations.RandomByteIsMasked : Prop :=
  ∀ (x : Reg) (nn : Byte) (s : State), EncodedAs (.rnd x nn) 0xC000#16 0xF000#16 ∧
    ∃ t, exec (.rnd x nn) s = .next t ∧ t.reg x = Config.rnd s.draws &&& nn ∧
      OnlyRegs (· = x) { s with draws := s.draws + 1 } t ∧ Advanced s t

/-- O40. The writes column of R17: an instruction writes no register but those the table gives it, and FX0A writes
none while no key is pressed. -/
def Obligations.RegistersWrittenByEachInstruction : Prop :=
  ∀ (i : Instr) (s t : State), exec i s = .next t →
    SameRegsBut (writesReg i) s t ∧ (∀ x, i = .ldVxK x → s.key = 0#16 → SameRegsBut (fun _ => False) s t)

/-! ### Index register and memory (43_index_memory.md) -/

/-- O41. R104: ANNN loads NNN into I. -/
def Obligations.IndexLoad : Prop :=
  ∀ (nnn : Addr12) (s : State), EncodedAs (.ldI nnn) 0xA000#16 0xF000#16 ∧
    ∃ t, exec (.ldI nnn) s = .next t ∧ t.i.toNat = nnn.toNat ∧ OnlyPc { s with i := t.i } t ∧ Advanced s t

/-- O42. R106: FX29 loads 5 * VX into I, not masked (that VX is not masked is the spec's own decision D19). -/
def Obligations.IndexAtGlyph : Prop :=
  ∀ (x : Reg) (s : State), EncodedAs (.ldF x) 0xF029#16 0xF0FF#16 ∧
    ∃ t, exec (.ldF x) s = .next t ∧ t.i.toNat = (s.reg x).toNat * 5 ∧ OnlyPc { s with i := t.i } t ∧ Advanced s t

/-- O43. R105: FX1E adds VX to I modulo 2^16; VF is 1 exactly when the sum is above 0xFFF (the
spec's own decisions D15, D18). -/
def Obligations.AddToIndexSetsRangeFlag : Prop :=
  ∀ (x : Reg) (s : State), EncodedAs (.addI x) 0xF01E#16 0xF0FF#16 ∧
    ∃ t, exec (.addI x) s = .next t ∧ t.i.toNat = (s.i.toNat + (s.reg x).toNat) % 65536 ∧
      (t.reg vf).toNat = (if s.i.toNat + (s.reg x).toNat > 0xFFF then 1 else 0) ∧
      OnlyRegs (· = vf) { s with i := t.i } t ∧ Advanced s t

/-- O44. R107: FX33 stores the hundreds, tens and units of VX at I, I + 1, I + 2 and nothing else; past 0xFFF it raises
MEM_OUT_OF_RANGE and stores nothing. The canonical form of memory (O17) is a premise of what the bytes read as.
The record is the spec's own decisions D7, D8. -/
def Obligations.DecimalDigitsStored : Prop :=
  ∀ (x : Reg) (s : State), EncodedAs (.ldB x) 0xF033#16 0xF0FF#16 ∧
    (s.base + 2 > 0xFFF →
      exec (.ldB x) s = .next { s with fault := faultRecord s (encode (.ldB x)) (.memOutOfRange, max s.base 0x1000) }) ∧
    (s.base + 2 ≤ 0xFFF → ∃ t, exec (.ldB x) s = .next t ∧
      (s.canonical = true → (t.byte s.base).toNat = (s.reg x).toNat / 100 ∧
        (t.byte (s.base + 1)).toNat = (s.reg x).toNat / 10 % 10 ∧
        (t.byte (s.base + 2)).toNat = (s.reg x).toNat % 10) ∧
      SameBytesOutside s.base 3 s t ∧ OnlyMem s t ∧ Advanced s t)

/-- O45. R108: FX55 stores V0..VX at I and nothing else, I unchanged (the spec's own decision D14); past 0xFFF it
raises MEM_OUT_OF_RANGE. The record is the spec's own decisions D7, D8. -/
def Obligations.RegistersStored : Prop :=
  ∀ (x : Reg) (s : State), EncodedAs (.storeRegs x) 0xF055#16 0xF0FF#16 ∧
    (s.base + x.val > 0xFFF → exec (.storeRegs x) s =
      .next { s with fault := faultRecord s (encode (.storeRegs x)) (.memOutOfRange, max s.base 0x1000) }) ∧
    (s.base + x.val ≤ 0xFFF → ∃ t, exec (.storeRegs x) s = .next t ∧
      (s.canonical = true → ∀ r : Reg, r ≤ x → t.byte (s.base + r.val) = s.reg r) ∧
      SameBytesOutside s.base (x.val + 1) s t ∧ OnlyMem s t ∧ Advanced s t)

/-- O46. R109: FX65 loads V0..VX from I, I unchanged (the spec's own decision D14); past 0xFFF it raises
MEM_OUT_OF_RANGE. The record is the spec's own decisions D7, D8. -/
def Obligations.RegistersLoaded : Prop :=
  ∀ (x : Reg) (s : State), EncodedAs (.loadRegs x) 0xF065#16 0xF0FF#16 ∧
    (s.base + x.val > 0xFFF → exec (.loadRegs x) s =
      .next { s with fault := faultRecord s (encode (.loadRegs x)) (.memOutOfRange, max s.base 0x1000) }) ∧
    (s.base + x.val ≤ 0xFFF → ∃ t, exec (.loadRegs x) s = .next t ∧
      (∀ r : Reg, r ≤ x → t.reg r = s.byte (s.base + r.val)) ∧ OnlyRegs (· ≤ x) s t ∧ Advanced s t)

/-- O47. Register block store and load round-trip V0..VX through memory at I (R108, R109; 95_test_vectors.md S10). -/
def Obligations.StoreThenLoadRestoresRegisters : Prop :=
  ∀ (x : Reg) (s t u : State), s.canonical = true → s.base + x.val ≤ 0xFFF → exec (.storeRegs x) s = .next t →
    u.i = t.i → (∀ a, u.byte a = t.byte a) → ∃ w, exec (.loadRegs x) u = .next w ∧ ∀ r : Reg, r ≤ x → w.reg r = s.reg r

/-- O48. The write rows of R47: an instruction stores to no byte of memory but those the table gives it at I. -/
def Obligations.OnlyBcdAndStoreWriteMemory : Prop :=
  ∀ (i : Instr) (s t : State), exec i s = .next t → SameBytesOutside s.base (storesBytes i) s t

/-- O49. R54: a byte stored by FX55 is what a later fetch of its address reads, as high or low byte of the word. -/
def Obligations.FetchSeesStoredBytes : Prop :=
  ∀ (x a b : Reg) (s t : State), s.canonical = true → exec (.storeRegs x) s = .next t → s.base + x.val ≤ 0xFFF →
    a ≤ x → b ≤ x → b.val = a.val + 1 →
    State.fetchWord { t with pc := s.i + BitVec.ofNat 16 a.val } = .ok (wordOfBytes (s.reg a) (s.reg b))

/-- O50. Who writes what else: FB only 00E0 and DXYN (R28), STACK only 2NNN and 00EE (R24), I only ANNN, FX1E and FX29
(R18), and the random byte is drawn only by CXNN (R81). That FX55 and FX65 leave I as it was is the spec's own decision
D14, that no store reaches STACK its D5 (log 15), that the random byte is a free draw only CXNN uses its D23 (log 6). -/
def Obligations.WritersOfFramebufferStackAndIndex : Prop :=
  ∀ (i : Instr) (s t : State), exec i s = .next t →
    (t.fb = s.fb ∨ i = .cls ∨ ∃ x y n, i = .drw x y n) ∧
    (t.stack = s.stack ∨ i = .ret ∨ ∃ a, i = .call a) ∧
    (t.i = s.i ∨ (∃ a, i = .ldI a) ∨ (∃ x, i = .addI x) ∨ ∃ x, i = .ldF x) ∧
    (t.draws = s.draws ∨ ∃ x k, i = .rnd x k)

/-! ### Display (44_display.md) -/

/-- O51. R110: 00E0 turns every pixel off and reports a change; VF and everything else is unchanged. -/
def Obligations.ClearScreen : Prop :=
  encode .cls = 0x00E0#16 ∧ ∀ s : State, ∃ t, exec .cls s = .next t ∧
    (∀ x y, t.fb.pixel x y = false) ∧ t.changed = true ∧ t.pc = s.pc + 2#16 ∧ OnlyPc { s with fb := t.fb } t

/-- O52. R115 (a), under both values of SPRITE_X_EDGE: the row-by-row, bit-by-bit drawing loop of R112 inverts exactly
the pixels the sprite's 1-bits cover, and reports a hit exactly when one of them was on (R113, R114). -/
def Obligations.DrawingLoopXorsTheMask : Prop :=
  ∀ (edge : SpriteEdge) (x0 y0 : Nat) (bs : List Byte) (fb : Framebuffer), x0 < 64 → y0 < 32 → bs.length ≤ 15 →
    XorsMask (Covers edge x0 y0 bs.length (fun r => bs.getD r 0#8)) fb (drawSprite edge x0 y0 bs fb).fb ∧
    ((drawSprite edge x0 y0 bs fb).hit = true ↔
      ∃ px py, Covers edge x0 y0 bs.length (fun r => bs.getD r 0#8) px py ∧ fb.pixel px py = true)

/-- O53. R111, R112, R113: DXYN inverts the pixels of its mask (anchor read before VF is cleared), sets VF to 1 exactly
when a pixel it inverts was on and to 0 otherwise, always reports a change, and changes nothing else; with N = 0
it draws nothing and cannot fault; past 0xFFF it raises MEM_OUT_OF_RANGE (R122, R123), and the record of it, and that
only FAULT changes, are the spec's own decisions D7, D8 (log 9). That columns wrap, and that VX and VY are read before
VF is cleared, is the spec's own decision D16 (log 2). -/
def Obligations.DrawSprite : Prop :=
  ∀ (x y : Reg) (n : Nibble) (s : State), EncodedAs (.drw x y n) 0xD000#16 0xF000#16 ∧
    (n.toNat > 0 ∧ s.i.toNat + n.toNat - 1 > 0xFFF → exec (.drw x y n) s =
      .next { s with fault := faultRecord s (encode (.drw x y n)) (.memOutOfRange, max s.i.toNat 0x1000) }) ∧
    (n.toNat = 0 ∨ s.i.toNat + n.toNat - 1 ≤ 0xFFF → ∃ t, exec (.drw x y n) s = .next t ∧
      XorsMask (drawMask x y n s) s.fb t.fb ∧
      (((∃ px py, drawMask x y n s px py ∧ s.fb.pixel px py = true) ∧ t.reg vf = 1#8) ∨
       ((¬ ∃ px py, drawMask x y n s px py ∧ s.fb.pixel px py = true) ∧ t.reg vf = 0#8)) ∧
      t.changed = true ∧ t.pc = s.pc + 2#16 ∧ OnlyRegs (· = vf) { s with fb := t.fb } t)

/-- O54. R115 (b): drawing the same sprite at the same anchor twice, with no write of FB between, restores FB, and the
second draw sets VF to 1 exactly when some pixel of the mask was off before the first. Columns wrap (D16; log 2). -/
def Obligations.DrawingTwiceRestores : Prop :=
  ∀ (x y : Reg) (n : Nibble) (s t u : State), n.toNat = 0 ∨ s.i.toNat + n.toNat - 1 ≤ 0xFFF →
    exec (.drw x y n) s = .next t → u.fb = t.fb → u.i = s.i → (∀ a, u.byte a = s.byte a) →
    u.reg x = s.reg x → u.reg y = s.reg y →
    ∃ w, exec (.drw x y n) u = .next w ∧ w.fb = s.fb ∧
      (w.reg vf = 1#8 ↔ ∃ px py, drawMask x y n s px py ∧ s.fb.pixel px py = false)

/-! ### Keypad and timers (45_keypad_timers.md, 60_exceptions.md) -/

/-- O55. R116, R117: EX9E and EXA1 skip when key VX is pressed, not pressed; VX > 0xF raises KEY_INDEX_OUT_OF_RANGE
(the spec's own decision D17; the record, and that only FAULT changes, D7, D8, log 9). -/
def Obligations.KeySkips : Prop :=
  ∀ (x : Reg) (s : State),
    EncodedAs (.skp x) 0xE09E#16 0xF0FF#16 ∧ EncodedAs (.sknp x) 0xE0A1#16 0xF0FF#16 ∧
    ((s.reg x).toNat > 0xF →
      exec (.skp x) s =
        .next { s with fault := faultRecord s (encode (.skp x)) (.keyIndexOutOfRange, (s.reg x).toNat) } ∧
      exec (.sknp x) s =
        .next { s with fault := faultRecord s (encode (.sknp x)) (.keyIndexOutOfRange, (s.reg x).toNat) }) ∧
    ((s.reg x).toNat ≤ 0xF →
      (∃ t, exec (.skp x) s = .next t ∧
        t.pc = (if s.key.getLsbD (s.reg x).toNat then s.pc + 4#16 else s.pc + 2#16) ∧ t.changed = false ∧ OnlyPc s t) ∧
      (∃ t, exec (.sknp x) s = .next t ∧
        t.pc = (if s.key.getLsbD (s.reg x).toNat then s.pc + 2#16 else s.pc + 4#16) ∧ t.changed = false ∧ OnlyPc s t))

/-- O56. R118: FX0A with no key pressed leaves PC at itself and writes nothing; otherwise it stores the lowest-indexed
pressed key and moves on. -/
def Obligations.KeyWait : Prop :=
  ∀ (x : Reg) (s : State), EncodedAs (.ldVxK x) 0xF00A#16 0xF0FF#16 ∧
    ((∀ k < 16, s.key.getLsbD k = false) →
      ∃ t, exec (.ldVxK x) s = .next t ∧ t.pc = s.pc ∧ t.changed = false ∧ OnlyPc s t) ∧
    (∀ k < 16, s.key.getLsbD k = true → (∀ j < k, s.key.getLsbD j = false) →
      ∃ t, exec (.ldVxK x) s = .next t ∧ (t.reg x).toNat = k ∧ OnlyRegs (· = x) s t ∧ Advanced s t)

/-- O57. R119, R120, R121: FX07 reads DT; FX15 and FX18 set DT and ST from VX. -/
def Obligations.TimerInstructions : Prop :=
  ∀ (x : Reg) (s : State),
    EncodedAs (.ldVxDt x) 0xF007#16 0xF0FF#16 ∧ EncodedAs (.ldDtVx x) 0xF015#16 0xF0FF#16 ∧
    EncodedAs (.ldStVx x) 0xF018#16 0xF0FF#16 ∧
    (∃ t, exec (.ldVxDt x) s = .next t ∧ t.reg x = s.dt ∧ OnlyRegs (· = x) s t ∧ Advanced s t) ∧
    (∃ t, exec (.ldDtVx x) s = .next t ∧ t.dt = s.reg x ∧ OnlyPc { s with dt := s.reg x } t ∧ Advanced s t) ∧
    (∃ t, exec (.ldStVx x) s = .next t ∧ t.st = s.reg x ∧ OnlyPc { s with st := s.reg x } t ∧ Advanced s t)

/-- O58. R151: an FX07 after an FX15 reads the written value minus the number of ticks between the two steps,
saturating at 0. -/
def Obligations.TimerReadAfterTicks : Prop :=
  ∀ (x y : Reg) (n : Nat) (s : State), ∃ t u, exec (.ldDtVx x) s = .next t ∧
    exec (.ldVxDt y) (t.ticks n) = .next u ∧ (u.reg y).toNat = (s.reg x).toNat - n

/-! ### The parameter FONT (20_memory.md) -/

/-- O59. FONT is a parameter (R8, R41, D9): no step of any agent changes it. That it stands in a field of State is the
model's own choice (log 5). -/
def Obligations.FontIsNeverChanged : Prop :=
  ∀ s t : State, step s = .next t → t.font = s.font
end

