-- ==== Sys2Proof/Laws/Decode.lean ====
section
/-! SUPPORT. The fields of an encoded word, a word rebuilt from its fields and from its bytes. -/

namespace Sys2Proof

@[simp] theorem Reg.toFin_bits (r : Reg) : (Reg.bits r).toFin = r := rfl

@[simp] theorem Reg.bits_toFin (b : Nibble) : Reg.bits (b.toFin : Reg) = b := rfl

/-! ### Words of four nibbles (formats REG_REG and DRAW) -/

open BitVec in
@[simp] theorem opField_nibbles (a b c d : Nibble) : opField (a ++ b ++ c ++ d) = a :=
  (extractLsb'_append_eq_of_le (xhi := a ++ b ++ c) (xlo := d) (start := 12) (len := 4) (by decide)).trans <|
  (extractLsb'_append_eq_of_le (xhi := a ++ b) (xlo := c) (start := 8) (len := 4) (by decide)).trans <|
  (extractLsb'_append_eq_of_le (xhi := a) (xlo := b) (start := 4) (len := 4) (by decide)).trans extractLsb'_eq_self

open BitVec in
@[simp] theorem xField_nibbles (a b c d : Nibble) : xField (a ++ b ++ c ++ d) = b.toFin :=
  congrArg BitVec.toFin <|
  (extractLsb'_append_eq_of_le (xhi := a ++ b ++ c) (xlo := d) (start := 8) (len := 4) (by decide)).trans <|
  (extractLsb'_append_eq_of_le (xhi := a ++ b) (xlo := c) (start := 4) (len := 4) (by decide)).trans <|
  (extractLsb'_append_eq_of_add_le (xhi := a) (xlo := b) (start := 0) (len := 4) (by decide)).trans extractLsb'_eq_self

open BitVec in
@[simp] theorem yField_nibbles (a b c d : Nibble) : yField (a ++ b ++ c ++ d) = c.toFin :=
  congrArg BitVec.toFin <|
  (extractLsb'_append_eq_of_le (xhi := a ++ b ++ c) (xlo := d) (start := 4) (len := 4) (by decide)).trans <|
  (extractLsb'_append_eq_of_add_le (xhi := a ++ b) (xlo := c) (start := 0) (len := 4) (by decide)).trans
    extractLsb'_eq_self

open BitVec in
@[simp] theorem nField_nibbles (a b c d : Nibble) : nField (a ++ b ++ c ++ d) = d :=
  (extractLsb'_append_eq_of_add_le (xhi := a ++ b ++ c) (xlo := d) (start := 0) (len := 4) (by decide)).trans
    extractLsb'_eq_self

/-! ### Words with a trailing byte (formats REG_IMM and REG_SUB) -/

open BitVec in
@[simp] theorem opField_byte (a b : Nibble) (k : Byte) : opField (a ++ b ++ k) = a :=
  (extractLsb'_append_eq_of_le (xhi := a ++ b) (xlo := k) (start := 12) (len := 4) (by decide)).trans <|
  (extractLsb'_append_eq_of_le (xhi := a) (xlo := b) (start := 4) (len := 4) (by decide)).trans extractLsb'_eq_self

open BitVec in
@[simp] theorem xField_byte (a b : Nibble) (k : Byte) : xField (a ++ b ++ k) = b.toFin :=
  congrArg BitVec.toFin <|
  (extractLsb'_append_eq_of_le (xhi := a ++ b) (xlo := k) (start := 8) (len := 4) (by decide)).trans <|
  (extractLsb'_append_eq_of_add_le (xhi := a) (xlo := b) (start := 0) (len := 4) (by decide)).trans extractLsb'_eq_self

open BitVec in
@[simp] theorem nnField_byte (a b : Nibble) (k : Byte) : nnField (a ++ b ++ k) = k :=
  (extractLsb'_append_eq_of_add_le (xhi := a ++ b) (xlo := k) (start := 0) (len := 8) (by decide)).trans
    extractLsb'_eq_self

/-! ### Words with a trailing address (format ADDR) -/

open BitVec in
@[simp] theorem opField_addr (a : Nibble) (n : Addr12) : opField (a ++ n) = a :=
  (extractLsb'_append_eq_of_le (xhi := a) (xlo := n) (start := 12) (len := 4) (by decide)).trans extractLsb'_eq_self

open BitVec in
@[simp] theorem nnnField_addr (a : Nibble) (n : Addr12) : nnnField (a ++ n) = n :=
  (extractLsb'_append_eq_of_add_le (xhi := a) (xlo := n) (start := 0) (len := 12) (by decide)).trans
    extractLsb'_eq_self

/-! ### A word is its fields -/

theorem word_addr (w : Word) : (opField w ++ nnnField w : Word) = w := by
  apply BitVec.eq_of_toNat_eq
  simp only [opField, nnnField, BitVec.toNat_append, BitVec.extractLsb'_toNat, ← Nat.shiftLeft_add_eq_or_of_lt (Nat.mod_lt _ (by decide : 2 ^ 12 > 0))]
  have := w.isLt
  simp only [Nat.shiftRight_eq_div_pow, Nat.shiftLeft_eq]
  omega

theorem word_byte (w : Word) : (opField w ++ Reg.bits (xField w) ++ nnField w : Word) = w := by
  apply BitVec.eq_of_toNat_eq
  simp only [opField, xField, nnField, Reg.bits_toFin, BitVec.toNat_append, BitVec.extractLsb'_toNat, ← Nat.shiftLeft_add_eq_or_of_lt (Nat.mod_lt _ (by decide : 2 ^ 8 > 0)), ← Nat.shiftLeft_add_eq_or_of_lt (Nat.mod_lt _ (by decide : 2 ^ 4 > 0))]
  have := w.isLt
  simp only [Nat.shiftRight_eq_div_pow, Nat.shiftLeft_eq]
  omega

theorem word_nibbles (w : Word) : (opField w ++ Reg.bits (xField w) ++ Reg.bits (yField w) ++ nField w : Word) = w := by
  apply BitVec.eq_of_toNat_eq
  simp only [opField, xField, yField, nField, Reg.bits_toFin, BitVec.toNat_append, BitVec.extractLsb'_toNat, ← Nat.shiftLeft_add_eq_or_of_lt (Nat.mod_lt _ (by decide : 2 ^ 4 > 0))]
  have := w.isLt
  simp only [Nat.shiftRight_eq_div_pow, Nat.shiftLeft_eq]
  omega

/-- A word is its two bytes, high byte first. -/
@[simp] theorem wordOfBytes_hiByte_loByte (w : Word) : wordOfBytes (hiByte w) (loByte w) = w := by
  apply BitVec.eq_of_toNat_eq
  simp only [wordOfBytes, hiByte, loByte, BitVec.toNat_append, BitVec.extractLsb'_toNat, ← Nat.shiftLeft_add_eq_or_of_lt (Nat.mod_lt _ (by decide : 2 ^ 8 > 0))]
  have := w.isLt
  simp only [Nat.shiftRight_eq_div_pow, Nat.shiftLeft_eq]
  omega

end Sys2Proof
end

