-- ==== Sys2Proof/Laws/State.lean ====
section
/-! SUPPORT. The fields of every state update, one lemma per field, so that no proof unfolds a record update. -/

namespace Sys2Proof.Machine

/-! ### advance -/

@[simp] theorem State.advance_v (s : State) : s.advance.v = s.v := rfl
@[simp] theorem State.advance_i (s : State) : s.advance.i = s.i := rfl
@[simp] theorem State.advance_pc (s : State) : s.advance.pc = s.pc + 2#16 := rfl
@[simp] theorem State.advance_stack (s : State) : s.advance.stack = s.stack := rfl
@[simp] theorem State.advance_dt (s : State) : s.advance.dt = s.dt := rfl
@[simp] theorem State.advance_st (s : State) : s.advance.st = s.st := rfl
@[simp] theorem State.advance_fb (s : State) : s.advance.fb = s.fb := rfl
@[simp] theorem State.advance_key (s : State) : s.advance.key = s.key := rfl
@[simp] theorem State.advance_mem (s : State) : s.advance.mem = s.mem := rfl
@[simp] theorem State.advance_rom (s : State) : s.advance.rom = s.rom := rfl
@[simp] theorem State.advance_font (s : State) : s.advance.font = s.font := rfl
@[simp] theorem State.advance_fault (s : State) : s.advance.fault = s.fault := rfl
@[simp] theorem State.advance_changed (s : State) : s.advance.changed = false := rfl
@[simp] theorem State.advance_draws (s : State) : s.advance.draws = s.draws := rfl
@[simp] theorem State.advance_agenda (s : State) : s.advance.agenda = s.agenda := rfl

/-! ### jump -/

@[simp] theorem State.jump_v (s : State) (t : Word) : (s.jump t).v = s.v := rfl
@[simp] theorem State.jump_i (s : State) (t : Word) : (s.jump t).i = s.i := rfl
@[simp] theorem State.jump_pc (s : State) (t : Word) : (s.jump t).pc = t := rfl
@[simp] theorem State.jump_stack (s : State) (t : Word) : (s.jump t).stack = s.stack := rfl
@[simp] theorem State.jump_dt (s : State) (t : Word) : (s.jump t).dt = s.dt := rfl
@[simp] theorem State.jump_st (s : State) (t : Word) : (s.jump t).st = s.st := rfl
@[simp] theorem State.jump_fb (s : State) (t : Word) : (s.jump t).fb = s.fb := rfl
@[simp] theorem State.jump_key (s : State) (t : Word) : (s.jump t).key = s.key := rfl
@[simp] theorem State.jump_mem (s : State) (t : Word) : (s.jump t).mem = s.mem := rfl
@[simp] theorem State.jump_rom (s : State) (t : Word) : (s.jump t).rom = s.rom := rfl
@[simp] theorem State.jump_font (s : State) (t : Word) : (s.jump t).font = s.font := rfl
@[simp] theorem State.jump_fault (s : State) (t : Word) : (s.jump t).fault = s.fault := rfl
@[simp] theorem State.jump_changed (s : State) (t : Word) : (s.jump t).changed = s.changed := rfl
@[simp] theorem State.jump_draws (s : State) (t : Word) : (s.jump t).draws = s.draws := rfl
@[simp] theorem State.jump_agenda (s : State) (t : Word) : (s.jump t).agenda = s.agenda := rfl

/-! ### push -/

@[simp] theorem State.push_v (s : State) (ra : Word) : (s.push ra).v = s.v := rfl
@[simp] theorem State.push_i (s : State) (ra : Word) : (s.push ra).i = s.i := rfl
@[simp] theorem State.push_pc (s : State) (ra : Word) : (s.push ra).pc = s.pc := rfl
@[simp] theorem State.push_stack (s : State) (ra : Word) : (s.push ra).stack = s.stack ++ [ra] := rfl
@[simp] theorem State.push_dt (s : State) (ra : Word) : (s.push ra).dt = s.dt := rfl
@[simp] theorem State.push_st (s : State) (ra : Word) : (s.push ra).st = s.st := rfl
@[simp] theorem State.push_fb (s : State) (ra : Word) : (s.push ra).fb = s.fb := rfl
@[simp] theorem State.push_key (s : State) (ra : Word) : (s.push ra).key = s.key := rfl
@[simp] theorem State.push_mem (s : State) (ra : Word) : (s.push ra).mem = s.mem := rfl
@[simp] theorem State.push_rom (s : State) (ra : Word) : (s.push ra).rom = s.rom := rfl
@[simp] theorem State.push_font (s : State) (ra : Word) : (s.push ra).font = s.font := rfl
@[simp] theorem State.push_fault (s : State) (ra : Word) : (s.push ra).fault = s.fault := rfl
@[simp] theorem State.push_changed (s : State) (ra : Word) : (s.push ra).changed = s.changed := rfl
@[simp] theorem State.push_draws (s : State) (ra : Word) : (s.push ra).draws = s.draws := rfl
@[simp] theorem State.push_agenda (s : State) (ra : Word) : (s.push ra).agenda = s.agenda := rfl

/-! ### setReg -/

@[simp] theorem State.setReg_v (s : State) (r : Reg) (b : Byte) : (s.setReg r b).v = s.v.set r.val b := rfl
@[simp] theorem State.setReg_i (s : State) (r : Reg) (b : Byte) : (s.setReg r b).i = s.i := rfl
@[simp] theorem State.setReg_pc (s : State) (r : Reg) (b : Byte) : (s.setReg r b).pc = s.pc := rfl
@[simp] theorem State.setReg_stack (s : State) (r : Reg) (b : Byte) : (s.setReg r b).stack = s.stack := rfl
@[simp] theorem State.setReg_dt (s : State) (r : Reg) (b : Byte) : (s.setReg r b).dt = s.dt := rfl
@[simp] theorem State.setReg_st (s : State) (r : Reg) (b : Byte) : (s.setReg r b).st = s.st := rfl
@[simp] theorem State.setReg_fb (s : State) (r : Reg) (b : Byte) : (s.setReg r b).fb = s.fb := rfl
@[simp] theorem State.setReg_key (s : State) (r : Reg) (b : Byte) : (s.setReg r b).key = s.key := rfl
@[simp] theorem State.setReg_mem (s : State) (r : Reg) (b : Byte) : (s.setReg r b).mem = s.mem := rfl
@[simp] theorem State.setReg_rom (s : State) (r : Reg) (b : Byte) : (s.setReg r b).rom = s.rom := rfl
@[simp] theorem State.setReg_font (s : State) (r : Reg) (b : Byte) : (s.setReg r b).font = s.font := rfl
@[simp] theorem State.setReg_fault (s : State) (r : Reg) (b : Byte) : (s.setReg r b).fault = s.fault := rfl
@[simp] theorem State.setReg_changed (s : State) (r : Reg) (b : Byte) : (s.setReg r b).changed = s.changed := rfl
@[simp] theorem State.setReg_draws (s : State) (r : Reg) (b : Byte) : (s.setReg r b).draws = s.draws := rfl
@[simp] theorem State.setReg_agenda (s : State) (r : Reg) (b : Byte) : (s.setReg r b).agenda = s.agenda := rfl

/-! ### takeFault -/

@[simp] theorem State.takeFault_v (s : State) (c : FaultCause) (w : Word) (k : Bool) (n : Info) : (s.takeFault c w k n).v = s.v := rfl
@[simp] theorem State.takeFault_i (s : State) (c : FaultCause) (w : Word) (k : Bool) (n : Info) : (s.takeFault c w k n).i = s.i := rfl
@[simp] theorem State.takeFault_pc (s : State) (c : FaultCause) (w : Word) (k : Bool) (n : Info) : (s.takeFault c w k n).pc = s.pc := rfl
@[simp] theorem State.takeFault_stack (s : State) (c : FaultCause) (w : Word) (k : Bool) (n : Info) : (s.takeFault c w k n).stack = s.stack := rfl
@[simp] theorem State.takeFault_dt (s : State) (c : FaultCause) (w : Word) (k : Bool) (n : Info) : (s.takeFault c w k n).dt = s.dt := rfl
@[simp] theorem State.takeFault_st (s : State) (c : FaultCause) (w : Word) (k : Bool) (n : Info) : (s.takeFault c w k n).st = s.st := rfl
@[simp] theorem State.takeFault_fb (s : State) (c : FaultCause) (w : Word) (k : Bool) (n : Info) : (s.takeFault c w k n).fb = s.fb := rfl
@[simp] theorem State.takeFault_key (s : State) (c : FaultCause) (w : Word) (k : Bool) (n : Info) : (s.takeFault c w k n).key = s.key := rfl
@[simp] theorem State.takeFault_mem (s : State) (c : FaultCause) (w : Word) (k : Bool) (n : Info) : (s.takeFault c w k n).mem = s.mem := rfl
@[simp] theorem State.takeFault_rom (s : State) (c : FaultCause) (w : Word) (k : Bool) (n : Info) : (s.takeFault c w k n).rom = s.rom := rfl
@[simp] theorem State.takeFault_font (s : State) (c : FaultCause) (w : Word) (k : Bool) (n : Info) : (s.takeFault c w k n).font = s.font := rfl
@[simp] theorem State.takeFault_fault (s : State) (c : FaultCause) (w : Word) (k : Bool) (n : Info) : (s.takeFault c w k n).fault = ⟨c, s.pc, w, k, n⟩ := rfl
@[simp] theorem State.takeFault_changed (s : State) (c : FaultCause) (w : Word) (k : Bool) (n : Info) : (s.takeFault c w k n).changed = s.changed := rfl
@[simp] theorem State.takeFault_draws (s : State) (c : FaultCause) (w : Word) (k : Bool) (n : Info) : (s.takeFault c w k n).draws = s.draws := rfl
@[simp] theorem State.takeFault_agenda (s : State) (c : FaultCause) (w : Word) (k : Bool) (n : Info) : (s.takeFault c w k n).agenda = s.agenda := rfl

/-! ### tick -/

@[simp] theorem State.tick_v (s : State) : s.tick.v = s.v := rfl
@[simp] theorem State.tick_i (s : State) : s.tick.i = s.i := rfl
@[simp] theorem State.tick_pc (s : State) : s.tick.pc = s.pc := rfl
@[simp] theorem State.tick_stack (s : State) : s.tick.stack = s.stack := rfl
@[simp] theorem State.tick_dt (s : State) : s.tick.dt = countDown s.dt := rfl
@[simp] theorem State.tick_st (s : State) : s.tick.st = countDown s.st := rfl
@[simp] theorem State.tick_fb (s : State) : s.tick.fb = s.fb := rfl
@[simp] theorem State.tick_key (s : State) : s.tick.key = s.key := rfl
@[simp] theorem State.tick_mem (s : State) : s.tick.mem = s.mem := rfl
@[simp] theorem State.tick_rom (s : State) : s.tick.rom = s.rom := rfl
@[simp] theorem State.tick_font (s : State) : s.tick.font = s.font := rfl
@[simp] theorem State.tick_fault (s : State) : s.tick.fault = s.fault := rfl
@[simp] theorem State.tick_changed (s : State) : s.tick.changed = s.changed := rfl
@[simp] theorem State.tick_draws (s : State) : s.tick.draws = s.draws := rfl
@[simp] theorem State.tick_agenda (s : State) : s.tick.agenda = s.agenda := rfl

/-! ### setKeys -/

@[simp] theorem State.setKeys_v (s : State) (k : BitVec 16) : (s.setKeys k).v = s.v := rfl
@[simp] theorem State.setKeys_i (s : State) (k : BitVec 16) : (s.setKeys k).i = s.i := rfl
@[simp] theorem State.setKeys_pc (s : State) (k : BitVec 16) : (s.setKeys k).pc = s.pc := rfl
@[simp] theorem State.setKeys_stack (s : State) (k : BitVec 16) : (s.setKeys k).stack = s.stack := rfl
@[simp] theorem State.setKeys_dt (s : State) (k : BitVec 16) : (s.setKeys k).dt = s.dt := rfl
@[simp] theorem State.setKeys_st (s : State) (k : BitVec 16) : (s.setKeys k).st = s.st := rfl
@[simp] theorem State.setKeys_fb (s : State) (k : BitVec 16) : (s.setKeys k).fb = s.fb := rfl
@[simp] theorem State.setKeys_key (s : State) (k : BitVec 16) : (s.setKeys k).key = k := rfl
@[simp] theorem State.setKeys_mem (s : State) (k : BitVec 16) : (s.setKeys k).mem = s.mem := rfl
@[simp] theorem State.setKeys_rom (s : State) (k : BitVec 16) : (s.setKeys k).rom = s.rom := rfl
@[simp] theorem State.setKeys_font (s : State) (k : BitVec 16) : (s.setKeys k).font = s.font := rfl
@[simp] theorem State.setKeys_fault (s : State) (k : BitVec 16) : (s.setKeys k).fault = s.fault := rfl
@[simp] theorem State.setKeys_changed (s : State) (k : BitVec 16) : (s.setKeys k).changed = s.changed := rfl
@[simp] theorem State.setKeys_draws (s : State) (k : BitVec 16) : (s.setKeys k).draws = s.draws := rfl
@[simp] theorem State.setKeys_agenda (s : State) (k : BitVec 16) : (s.setKeys k).agenda = s.agenda := rfl

/-! ### skipIf -/

@[simp] theorem State.skipIf_pc (s : State) (c : Bool) : (s.skipIf c).pc = if c then s.pc + 2#16 else s.pc := by
  cases c <;> rfl
@[simp] theorem State.skipIf_v (s : State) (c : Bool) : (s.skipIf c).v = s.v := by cases c <;> rfl
@[simp] theorem State.skipIf_i (s : State) (c : Bool) : (s.skipIf c).i = s.i := by cases c <;> rfl
@[simp] theorem State.skipIf_stack (s : State) (c : Bool) : (s.skipIf c).stack = s.stack := by cases c <;> rfl
@[simp] theorem State.skipIf_dt (s : State) (c : Bool) : (s.skipIf c).dt = s.dt := by cases c <;> rfl
@[simp] theorem State.skipIf_st (s : State) (c : Bool) : (s.skipIf c).st = s.st := by cases c <;> rfl
@[simp] theorem State.skipIf_fb (s : State) (c : Bool) : (s.skipIf c).fb = s.fb := by cases c <;> rfl
@[simp] theorem State.skipIf_key (s : State) (c : Bool) : (s.skipIf c).key = s.key := by cases c <;> rfl
@[simp] theorem State.skipIf_mem (s : State) (c : Bool) : (s.skipIf c).mem = s.mem := by cases c <;> rfl
@[simp] theorem State.skipIf_rom (s : State) (c : Bool) : (s.skipIf c).rom = s.rom := by cases c <;> rfl
@[simp] theorem State.skipIf_font (s : State) (c : Bool) : (s.skipIf c).font = s.font := by cases c <;> rfl
@[simp] theorem State.skipIf_fault (s : State) (c : Bool) : (s.skipIf c).fault = s.fault := by cases c <;> rfl
@[simp] theorem State.skipIf_changed (s : State) (c : Bool) : (s.skipIf c).changed = s.changed := by cases c <;> rfl
@[simp] theorem State.skipIf_draws (s : State) (c : Bool) : (s.skipIf c).draws = s.draws := by cases c <;> rfl
@[simp] theorem State.skipIf_agenda (s : State) (c : Bool) : (s.skipIf c).agenda = s.agenda := by cases c <;> rfl

/-! ### Registers -/

@[simp] theorem State.setFlag_eq (s : State) (c : Bool) : s.setFlag c = s.setReg vf (flagByte c) := rfl

@[simp] theorem State.setResultFlag_eq (s : State) (x : Reg) (b : Byte) (c : Bool) :
    s.setResultFlag x b c = (s.setReg x b).setReg vf (flagByte c) := rfl

@[simp] theorem State.reg_setReg (s : State) (x r : Reg) (b : Byte) :
    (s.setReg x b).reg r = if r = x then b else s.reg r := by
  by_cases h : r = x
  · subst h; simp [State.reg, State.setReg]
  · have : x.val ≠ r.val := fun e => h (Fin.ext e.symm)
    simp [State.reg, State.setReg, Vector.getElem_set_ne, this, h]

/-- Reading a register depends on the register file only. -/
theorem State.reg_of_v {s t : State} (h : s.v = t.v) (r : Reg) : s.reg r = t.reg r := by simp [State.reg, h]

@[simp] theorem State.reg_advance (s : State) (r : Reg) : s.advance.reg r = s.reg r := rfl
@[simp] theorem State.reg_jump (s : State) (t : Word) (r : Reg) : (s.jump t).reg r = s.reg r := rfl
@[simp] theorem State.reg_push (s : State) (t : Word) (r : Reg) : (s.push t).reg r = s.reg r := rfl
@[simp] theorem State.reg_skipIf (s : State) (c : Bool) (r : Reg) : (s.skipIf c).reg r = s.reg r := by cases c <;> rfl
@[simp] theorem State.reg_takeFault (s : State) (c : FaultCause) (w : Word) (k : Bool) (n : Info) (r : Reg) :
    (s.takeFault c w k n).reg r = s.reg r := rfl

/-- Registers with the same values are the same register file. -/
theorem State.v_ext {s t : State} (h : ∀ r, s.reg r = t.reg r) : s.v = t.v :=
  Vector.ext fun k hk => h ⟨k, hk⟩

end Sys2Proof.Machine
end

