-- ==== Sys2Proof/Laws/Display.lean ====
section
/-! SUPPORT. The framebuffer: what a pixel reads after a toggle and after a plot. -/

namespace Sys2Proof.Machine

@[simp] theorem Framebuffer.pixel_off (x : Fin 64) (y : Fin 32) : Framebuffer.off.pixel x y = false := by
  simp [Framebuffer.pixel, Framebuffer.off]

/-- A toggle changes its own pixel and no other. -/
theorem Framebuffer.pixel_toggle (fb : Framebuffer) (x x' : Fin 64) (y y' : Fin 32) :
    (fb.toggle x y).pixel x' y' = (fb.pixel x' y' ^^ (decide (x' = x) && decide (y' = y))) := by
  simp only [Framebuffer.pixel, Framebuffer.toggle, Vector.getElem_set]
  by_cases hy : y.val = y'.val
  · have hy' : y' = y := Fin.ext hy.symm
    subst hy'
    by_cases hx : x.val = x'.val
    · have hx' : x' = x := Fin.ext hx.symm
      subst hx'; simp
    · have hx' : x' ≠ x := fun e => hx (by rw [e])
      simp [hx, hx']
  · have hy' : y' ≠ y := fun e => hy (by rw [e])
    simp [hy, hy']

/-- Framebuffers with the same pixels are the same. -/
theorem Framebuffer.ext_pixel {a b : Framebuffer} (h : ∀ x y, a.pixel x y = b.pixel x y) : a = b :=
  Vector.ext fun j hj => Vector.ext fun k hk => h ⟨k, hk⟩ ⟨j, hj⟩

@[simp] theorem Canvas.plot_fb (cv : Canvas) (x : Fin 64) (y : Fin 32) : (cv.plot x y).fb = cv.fb.toggle x y := rfl
@[simp] theorem Canvas.plot_hit (cv : Canvas) (x : Fin 64) (y : Fin 32) :
    (cv.plot x y).hit = (cv.hit || cv.fb.pixel x y) := rfl

end Sys2Proof.Machine
end

