-- ==== Sys2Proof/Laws/Memory.lean ====
section
/-! SUPPORT. Memory: what a read gives after a write, and that every operation keeps the canonical form. -/

namespace Sys2Proof.Machine

variable {f : Font}

@[simp] theorem Memory.read_nil (a : Nat) : Memory.read f [] a = powerOnByte f a := rfl

theorem Memory.read_cons (k : Nat) (b : Byte) (m : Memory) (a : Nat) :
    Memory.read f ((k, b) :: m) a = if k = a then b else Memory.read f m a := rfl

/-- An address below every listed one reads as at power-on. -/
theorem Memory.read_below {lo : Nat} {m : Memory} (h : Memory.wfFrom f lo m = true) {a : Nat} (ha : a < lo) :
    Memory.read f m a = powerOnByte f a := by
  induction m generalizing lo with
  | nil => rfl
  | cons c m ih =>
    obtain ⟨k, b⟩ := c
    simp only [Memory.wfFrom, Bool.and_eq_true, decide_eq_true_eq] at h
    have hk : k ≠ a := by omega
    simp only [Memory.read_cons, hk, if_false]
    exact ih h.2 (by omega)

/-- A lower bound may be lowered. -/
theorem Memory.wfFrom_mono {lo lo' : Nat} {m : Memory} (h : Memory.wfFrom f lo m = true) (hl : lo' ≤ lo) :
    Memory.wfFrom f lo' m = true := by
  cases m with
  | nil => rfl
  | cons c m =>
    obtain ⟨k, b⟩ := c
    simp only [Memory.wfFrom, Bool.and_eq_true, decide_eq_true_eq] at h ⊢
    exact ⟨⟨⟨by omega, h.1.1.2⟩, h.1.2⟩, h.2⟩

/-- `cons` reads as the cell it puts in front, provided the rest does not list its address. -/
theorem Memory.read_cons' {a : Nat} {b : Byte} {m : Memory} (h : Memory.wfFrom f (a + 1) m = true) (x : Nat) :
    Memory.read f (Memory.cons f a b m) x = if x = a then b else Memory.read f m x := by
  unfold Memory.cons
  by_cases hb : b = powerOnByte f a
  · simp only [hb, if_true]
    by_cases hx : x = a
    · subst hx; simp [Memory.read_below h (Nat.lt_succ_self x)]
    · simp [hx]
  · simp only [hb, if_false, Memory.read_cons]
    by_cases hx : x = a
    · simp [hx]
    · simp [hx, Ne.symm hx]

theorem Memory.wf_cons {lo a : Nat} {b : Byte} {m : Memory} (hlo : lo ≤ a) (ha : a < memSize)
    (h : Memory.wfFrom f (a + 1) m = true) : Memory.wfFrom f lo (Memory.cons f a b m) = true := by
  unfold Memory.cons
  by_cases hb : b = powerOnByte f a
  · simp only [hb, if_true]; exact Memory.wfFrom_mono h (by omega)
  · simp only [hb, if_false, Memory.wfFrom, Bool.and_eq_true, decide_eq_true_eq]
    exact ⟨⟨⟨hlo, ha⟩, hb⟩, h⟩

/-- Read after write, over a canonical memory. -/
theorem Memory.read_writeFrom {lo : Nat} {m : Memory} (h : Memory.wfFrom f lo m = true) (a : Nat) (b : Byte) (x : Nat) :
    Memory.read f (Memory.write f m a b) x = if x = a then b else Memory.read f m x := by
  induction m generalizing lo with
  | nil => exact Memory.read_cons' rfl x
  | cons c m ih =>
    obtain ⟨k, d⟩ := c
    have h' := h
    simp only [Memory.wfFrom, Bool.and_eq_true, decide_eq_true_eq] at h
    unfold Memory.write
    split
    · next hak =>
      refine Memory.read_cons' ?_ x
      simp only [Memory.wfFrom, Bool.and_eq_true, decide_eq_true_eq]
      exact ⟨⟨⟨by omega, h.1.1.2⟩, h.1.2⟩, h.2⟩
    · split
      · next hak hk =>
        subst hk
        rw [Memory.read_cons' h.2]
        by_cases hx : x = a
        · simp [hx]
        · simp [hx, Memory.read_cons, Ne.symm hx]
      · next hak hk =>
        simp only [Memory.read_cons, ih h.2]
        by_cases hx : x = a
        · subst hx; simp [Ne.symm hk]
        · simp [hx]

theorem Memory.read_write {m : Memory} (h : m.wf f = true) (a : Nat) (b : Byte) (x : Nat) :
    Memory.read f (m.write f a b) x = if x = a then b else Memory.read f m x := Memory.read_writeFrom h a b x

theorem Memory.wf_writeFrom {lo : Nat} {m : Memory} (h : Memory.wfFrom f lo m = true) {a : Nat} (b : Byte)
    (hlo : lo ≤ a) (ha : a < memSize) : Memory.wfFrom f lo (Memory.write f m a b) = true := by
  induction m generalizing lo with
  | nil => exact Memory.wf_cons hlo ha rfl
  | cons c m ih =>
    obtain ⟨k, d⟩ := c
    simp only [Memory.wfFrom, Bool.and_eq_true, decide_eq_true_eq] at h
    unfold Memory.write
    split
    · next hak =>
      refine Memory.wf_cons hlo ha ?_
      simp only [Memory.wfFrom, Bool.and_eq_true, decide_eq_true_eq]
      exact ⟨⟨⟨by omega, h.1.1.2⟩, h.1.2⟩, h.2⟩
    · split
      · next hak hk => subst hk; exact Memory.wf_cons hlo ha h.2
      · next hak hk =>
        simp only [Memory.wfFrom, Bool.and_eq_true, decide_eq_true_eq]
        exact ⟨h.1, ih h.2 (by omega)⟩

/-- A write inside memory keeps the canonical form. -/
theorem Memory.wf_write {m : Memory} (h : m.wf f = true) {a : Nat} (b : Byte) (ha : a < memSize) :
    (m.write f a b).wf f = true := Memory.wf_writeFrom h b (Nat.zero_le a) ha

/-- Writing bytes inside memory keeps the canonical form. -/
theorem Memory.wf_writeAll {m : Memory} (h : m.wf f = true) {a : Nat} {bs : List Byte}
    (ha : bs = [] ∨ a + bs.length ≤ memSize) : (m.writeAll f a bs).wf f = true := by
  induction bs generalizing m a with
  | nil => exact h
  | cons b bs ih =>
    have hl : a + (bs.length + 1) ≤ memSize := by simpa using ha
    exact ih (Memory.wf_write h b (by omega)) (by right; omega)

/-- What a read gives after bytes were written inside memory. -/
theorem Memory.read_writeAll {m : Memory} (h : m.wf f = true) {a : Nat} {bs : List Byte}
    (ha : bs = [] ∨ a + bs.length ≤ memSize) (x : Nat) :
    Memory.read f (m.writeAll f a bs) x =
      if hx : a ≤ x ∧ x < a + bs.length then bs[x - a]'(by omega) else Memory.read f m x := by
  induction bs generalizing m a with
  | nil =>
    have : ¬(a ≤ x ∧ x < a + ([] : List Byte).length) := by simp
    rw [dif_neg this]; rfl
  | cons b bs ih =>
    have hl : a + (bs.length + 1) ≤ memSize := by simpa using ha
    show Memory.read f (Memory.writeAll f (m.write f a b) (a + 1) bs) x = _
    rw [ih (Memory.wf_write h b (by omega)) (by right; omega), Memory.read_write h]
    by_cases h1 : x = a
    · subst h1
      rw [dif_neg (by omega), dif_pos ⟨by omega, by simp⟩]
      simp
    · by_cases h2 : a + 1 ≤ x ∧ x < a + 1 + bs.length
      · rw [dif_pos h2, dif_pos ⟨by omega, by simp; omega⟩]
        obtain ⟨j, rfl⟩ : ∃ j, x = a + (j + 1) := ⟨x - a - 1, by omega⟩
        simp [show a + (j + 1) - (a + 1) = j by omega, show a + (j + 1) - a = j + 1 by omega]
      · rw [dif_neg h2, dif_neg (by simp; omega)]
        simp [h1]

/-- A write leaves every other address alone, in every memory. -/
theorem Memory.read_write_ne (m : Memory) {a x : Nat} (b : Byte) (h : x ≠ a) :
    Memory.read f (m.write f a b) x = Memory.read f m x := by
  have hc : ∀ m : Memory, Memory.read f (Memory.cons f a b m) x = Memory.read f m x := by
    intro m
    unfold Memory.cons
    split
    · rfl
    · simp [Memory.read_cons, Ne.symm h]
  induction m with
  | nil => exact hc []
  | cons c m ih =>
    obtain ⟨k, d⟩ := c
    unfold Memory.write
    split
    · exact hc _
    · split
      · next hk => subst hk; simp [hc, Memory.read_cons, Ne.symm h]
      · simp [Memory.read_cons, ih]

/-- Writing bytes leaves every address outside them alone, in every memory. -/
theorem Memory.read_writeAll_outside (m : Memory) {a x : Nat} (bs : List Byte)
    (h : x < a ∨ a + bs.length ≤ x) : Memory.read f (m.writeAll f a bs) x = Memory.read f m x := by
  induction bs generalizing m a with
  | nil => rfl
  | cons b bs ih =>
    have h' : x < a ∨ a + (bs.length + 1) ≤ x := by simpa using h
    show Memory.read f (Memory.writeAll f (m.write f a b) (a + 1) bs) x = _
    rw [ih (m.write f a b) (by omega), Memory.read_write_ne m b (by omega)]

/-- Past the font, power-on memory is zero. -/
theorem powerOnByte_of_le {a : Nat} (h : 80 ≤ a) : powerOnByte f a = 0#8 :=
  List.getD_eq_default _ _ (by simpa using h)

/-- Inside it, power-on memory is the font. -/
theorem powerOnByte_of_lt {a : Nat} (h : a < 80) : powerOnByte f a = f[a] := by
  simp [powerOnByte, h]

/-! ### The same of a state's memory -/

/-- What MEM reads depends on the listed cells and on FONT only. -/
theorem State.byte_congr {s t : State} (hm : t.mem = s.mem) (hf : t.font = s.font) (x : Nat) :
    t.byte x = s.byte x := by simp [State.byte, hm, hf]

@[simp] theorem State.byte_setMem (s : State) (m : Memory) (x : Nat) :
    ({ s with mem := m } : State).byte x = m.read s.font x := rfl

@[simp] theorem State.canonical_setMem (s : State) (m : Memory) :
    ({ s with mem := m } : State).canonical = m.wf s.font := rfl

/-- What a byte reads after bytes were stored inside memory. -/
theorem State.read_memWith {s : State} {a : Nat} {bs : List Byte} (h : s.canonical = true)
    (ha : bs = [] ∨ a + bs.length ≤ memSize) (x : Nat) :
    (s.memWith a bs).read s.font x = if hx : a ≤ x ∧ x < a + bs.length then bs[x - a]'(by omega) else s.byte x :=
  Memory.read_writeAll h ha x

/-- A store leaves every byte outside it alone, in every state. -/
theorem State.read_memWith_outside (s : State) {a x : Nat} (bs : List Byte) (hx : x < a ∨ a + bs.length ≤ x) :
    (s.memWith a bs).read s.font x = s.byte x := Memory.read_writeAll_outside s.mem bs hx

/-- A store inside memory keeps the canonical form. -/
theorem State.wf_memWith {s : State} {a : Nat} {bs : List Byte} (h : s.canonical = true)
    (ha : bs = [] ∨ a + bs.length ≤ memSize) : (s.memWith a bs).wf s.font = true := Memory.wf_writeAll h ha

theorem State.canonical_powerOn (f : Font) : (State.powerOn f).canonical = true := rfl

theorem State.canonical_reset : State.reset.canonical = true := rfl

end Sys2Proof.Machine
end

