-- ==== Sys2Proof/Laws/Ops.lean ====
section
/-! SUPPORT. The shared operations: what each one answers, once, so that no proof unfolds it. -/

namespace Sys2Proof.Machine

/-! ### Ranges -/

/-- A range is in memory exactly when it is empty or ends at or below ADDR_MAX. -/
theorem pastMemory_eq_false {base n : Nat} : pastMemory base n = false ↔ n = 0 ∨ base + n ≤ memSize := by
  simp only [pastMemory, Bool.and_eq_false_iff, decide_eq_false_iff_not]
  simp only [addrMax, memSize]
  omega

theorem pastMemory_eq_true {base n : Nat} : pastMemory base n = true ↔ 0 < n ∧ memSize < base + n := by
  simp only [pastMemory, Bool.and_eq_true, decide_eq_true_eq]
  simp only [addrMax, memSize]
  omega

/-! ### Loads and stores -/

/-- The bytes of a range of memory. -/
def State.bytes (s : State) (a n : Nat) : List Byte := (List.range n).map fun k => s.byte (a + k)

@[simp] theorem State.length_bytes (s : State) (a n : Nat) : (s.bytes a n).length = n := by simp [State.bytes]

theorem State.getElem_bytes {s : State} {a n k : Nat} (h : k < (s.bytes a n).length) :
    (s.bytes a n)[k] = s.byte (a + k) := by simp [State.bytes]

theorem State.bytes_succ (s : State) (a n : Nat) :
    s.bytes a (n + 1) = s.byte a :: s.bytes (a + 1) n := by
  simp [State.bytes, List.range_succ_eq_map, Function.comp_def, Nat.add_assoc, Nat.add_comm 1]

/-- A load inside memory answers the bytes of the range. -/
theorem State.loadBytes_eq (s : State) {a n : Nat} (h : n = 0 ∨ a + n ≤ memSize) :
    s.loadBytes a n = .ok (s.bytes a n) := by
  induction n generalizing a with
  | zero => rfl
  | succ n ih =>
    have ha : a ≤ addrMax := by simp [memSize] at h; simp [addrMax]; omega
    simp [State.loadBytes, State.memRead, ha, ih (a := a + 1) (by simp [memSize] at *; omega), State.bytes_succ]

/-- A store inside memory answers the state with those bytes written, and nothing else changed. -/
theorem State.storeBytes_eq (s : State) {a : Nat} {bs : List Byte} (h : bs = [] ∨ a + bs.length ≤ memSize) :
    s.storeBytes a bs = .ok { s with mem := s.memWith a bs } := by
  induction bs generalizing s a with
  | nil => rfl
  | cons b bs ih =>
    have hl : a + (bs.length + 1) ≤ memSize := by simpa using h
    have ha : a ≤ addrMax := by simp [memSize] at hl; simp [addrMax]; omega
    simp [State.storeBytes, State.memWrite, ha, ih _ (a := a + 1) (by right; omega), State.memWith, Memory.writeAll]

/-! ### Register blocks -/

@[simp] theorem State.length_regsUpTo (s : State) (x : Reg) : (s.regsUpTo x).length = x.val + 1 := by
  have := x.isLt
  simp [State.regsUpTo]

theorem State.getElem_regsUpTo (s : State) (x : Reg) {k : Nat} (h : k < (s.regsUpTo x).length) :
    (s.regsUpTo x)[k] = s.reg ⟨k, by have := x.isLt; simp at h; omega⟩ := by
  simp [State.regsUpTo, State.reg]

/-- Loading registers from `r` up: each register of the block takes its byte, the others keep theirs. -/
theorem State.reg_setRegsFrom (s : State) (r : Nat) (bs : List Byte) (q : Reg) :
    (s.setRegsFrom r bs).reg q = if h : r ≤ q.val ∧ q.val < r + bs.length then bs[q.val - r]'(by omega) else s.reg q := by
  induction bs generalizing s r with
  | nil =>
    have : ¬(r ≤ q.val ∧ q.val < r + ([] : List Byte).length) := by simp
    rw [dif_neg this]; rfl
  | cons b bs ih =>
    have hl : (b :: bs).length = bs.length + 1 := rfl
    have hq := q.isLt
    rw [State.setRegsFrom, ih]
    have keep : (if h : r < 16 then s.setReg ⟨r, h⟩ b else s).reg q = if q.val = r then b else s.reg q := by
      split
      · rw [State.reg_setReg]
        by_cases e : q.val = r
        · rw [if_pos e, if_pos (Fin.ext e)]
        · rw [if_neg e, if_neg (fun h => e (by rw [h]))]
      · rw [if_neg (by omega)]
    rw [keep]
    by_cases h2 : r + 1 ≤ q.val ∧ q.val < r + 1 + bs.length
    · have h3 : r ≤ q.val ∧ q.val < r + (b :: bs).length := by omega
      rw [dif_pos h2, dif_pos h3]
      obtain ⟨j, hj⟩ : ∃ j, q.val = r + (j + 1) := ⟨q.val - r - 1, by omega⟩
      simp [hj, show r + (j + 1) - (r + 1) = j by omega, show r + (j + 1) - r = j + 1 by omega]
    · rw [dif_neg h2]
      by_cases h1 : q.val = r
      · have h3 : r ≤ q.val ∧ q.val < r + (b :: bs).length := by omega
        rw [dif_pos h3]; simp [h1]
      · have h3 : ¬(r ≤ q.val ∧ q.val < r + (b :: bs).length) := by omega
        rw [dif_neg h3, if_neg h1]

/-- Loading registers writes the register file only. -/
theorem State.setRegsFrom_eq (s : State) (r : Nat) (bs : List Byte) :
    s.setRegsFrom r bs = { s with v := (s.setRegsFrom r bs).v } := by
  induction bs generalizing s r with
  | nil => rfl
  | cons b bs ih =>
    rw [State.setRegsFrom, ih]
    split <;> rfl

/-! ### Faults -/

/-- Raising a fault answers the state before the step with FAULT written. -/
theorem State.raise_eq (s : State) (i : Instr) (c : FaultCause) (n : Info) :
    s.raise i c n = .next (s.takeFault c (encode i) true n) := rfl

@[simp] theorem State.halted_eq_true {s : State} : s.halted = true ↔ s.fault.cause ≠ .none := by
  simp [State.halted]

@[simp] theorem State.halted_eq_false {s : State} : s.halted = false ↔ s.fault.cause = .none := by
  simp [State.halted]

/-! ### The stack -/

theorem State.pop_eq_none {s : State} : s.pop = none ↔ s.stack = [] := by
  unfold State.pop
  cases h : s.stack.getLast? with
  | none => simpa using h
  | some ra =>
    have : s.stack ≠ [] := by intro e; rw [e] at h; simp at h
    simp [this]

/-- What a pop answers from a nonempty stack. -/
theorem State.pop_concat {s : State} {st : List Word} {ra : Word} (h : s.stack = st ++ [ra]) :
    s.pop = some (ra, { s with stack := st }) := by
  simp [State.pop, h]

/-! ### Keys -/

/-- The lowest pressed key: pressed, below 16, and nothing below it is pressed. -/
theorem State.lowestKey_eq_some {s : State} {k : Nat} :
    s.lowestKey = some k ↔ k < 16 ∧ s.keyDown k = true ∧ ∀ j < k, s.keyDown j = false := by
  simp only [State.lowestKey, List.find?_range_eq_some]
  simp [and_left_comm]

theorem State.lowestKey_eq_none {s : State} : s.lowestKey = none ↔ ∀ k < 16, s.keyDown k = false := by
  simp [State.lowestKey]

/-! ### Fetch -/

/-- A fetch inside memory answers the two bytes at PC, high byte first. -/
theorem State.fetchWord_eq {s : State} (h : s.pc.toNat + 1 ≤ addrMax) :
    s.fetchWord = .ok (wordOfBytes (s.byte s.pc.toNat) (s.byte (s.pc.toNat + 1))) := by
  have h' : s.pc.toNat ≤ addrMax := by omega
  simp [State.fetchWord, State.memRead, h, h']

end Sys2Proof.Machine
end

