-- ==== Sys2Proof/Laws/Exec.lean ====
section
/-! SUPPORT. What the memory instructions, the return and the execution unit's step answer, once, so that no proof
unfolds them. -/

namespace Sys2Proof.Machine

/-! ### Instructions that check a range first -/

theorem execDrw_next {x y : Reg} {n : Nibble} {s : State} (h : pastMemory s.base n.toNat = false) :
    execDrw x y n s =
      let cv := drawSprite spriteEdge (anchorX (s.reg x)) (anchorY (s.reg y)) (s.bytes s.base n.toNat) s.fb
      .next { s.advance.setFlag cv.hit with fb := cv.fb, changed := true } := by
  rw [execDrw, h, State.loadBytes_eq _ (pastMemory_eq_false.1 h)]
  rfl

theorem execDrw_past {x y : Reg} {n : Nibble} {s : State} (h : pastMemory s.base n.toNat = true) :
    execDrw x y n s = .next (s.takeFault .memOutOfRange (encode (.drw x y n)) true (firstPast s.base)) := by
  rw [execDrw, h]; rfl

theorem execLdB_next {x : Reg} {s : State} (h : pastMemory s.base 3 = false) :
    execLdB x s = .next { s.advance with mem := s.memWith s.base (bcdDigits (s.reg x)) } := by
  rw [execLdB, h, State.storeBytes_eq _ (Or.inr ((pastMemory_eq_false.1 h).resolve_left (by decide)))]
  rfl

theorem execLdB_past {x : Reg} {s : State} (h : pastMemory s.base 3 = true) :
    execLdB x s = .next (s.takeFault .memOutOfRange (encode (.ldB x)) true (firstPast s.base)) := by
  rw [execLdB, h]; rfl

theorem execStoreRegs_next {x : Reg} {s : State} (h : pastMemory s.base (x.val + 1) = false) :
    execStoreRegs x s = .next { s.advance with mem := s.memWith s.base (s.regsUpTo x) } := by
  rw [execStoreRegs, h, State.storeBytes_eq]
  · rfl
  · rw [State.length_regsUpTo]
    exact Or.inr ((pastMemory_eq_false.1 h).resolve_left (by omega))

theorem execStoreRegs_past {x : Reg} {s : State} (h : pastMemory s.base (x.val + 1) = true) :
    execStoreRegs x s = .next (s.takeFault .memOutOfRange (encode (.storeRegs x)) true (firstPast s.base)) := by
  rw [execStoreRegs, h]; rfl

theorem execLoadRegs_next {x : Reg} {s : State} (h : pastMemory s.base (x.val + 1) = false) :
    execLoadRegs x s = .next (s.advance.setRegsFrom 0 (s.bytes s.base (x.val + 1))) := by
  rw [execLoadRegs, h, State.loadBytes_eq _ (pastMemory_eq_false.1 h)]
  rfl

theorem execLoadRegs_past {x : Reg} {s : State} (h : pastMemory s.base (x.val + 1) = true) :
    execLoadRegs x s = .next (s.takeFault .memOutOfRange (encode (.loadRegs x)) true (firstPast s.base)) := by
  rw [execLoadRegs, h]; rfl

/-! ### Return -/

theorem execRet_next {s : State} {st : List Word} {ra : Word} (h : s.stack = st ++ [ra]) :
    execRet s = .next { s.advance with stack := st, pc := ra } := by
  rw [execRet, State.pop_concat (s := s.advance) h]; rfl

theorem execRet_empty {s : State} (h : s.stack = []) :
    execRet s = .next (s.takeFault .stackUnderflow (encode .ret) true 0#17) := by
  have : s.advance.pop = none := State.pop_eq_none.2 h
  rw [execRet, this]; rfl

/-! ### The execution unit -/

/-- A range fault's info is the table's `max(I, 0x1000)`. -/
theorem firstPast_eq (a : Nat) : firstPast a = BitVec.ofNat 17 (max a 0x1000) := rfl

theorem executionStep_halted {s : State} (h : s.fault.cause ≠ .none) : executionStep s = .next s := by
  rw [executionStep, State.halted_eq_true.2 h]; rfl

theorem executionStep_past {s : State} (h : s.fault.cause = .none) (hp : s.pc.toNat > 0xFFE) :
    executionStep s = .next (s.takeFault .fetchOutOfRange 0#16 false (fetchInfo s.pc.toNat)) := by
  have hf : s.fetchPast = true := by simp only [State.fetchPast, decide_eq_true_eq]; simp only [addrMax]; omega
  rw [executionStep, State.halted_eq_false.2 h, hf]; rfl

/-- In RUN with a fetch inside memory, the step runs the word at PC. -/
theorem executionStep_run {s : State} (h : s.fault.cause = .none) (hp : s.pc.toNat ≤ 0xFFE) :
    executionStep s = runWord s.wordAtPc s := by
  have ha : s.pc.toNat + 1 ≤ addrMax := by simp only [addrMax]; omega
  have hf : s.fetchPast = false := by simp only [State.fetchPast, decide_eq_false_iff_not]; omega
  rw [executionStep, State.halted_eq_false.2 h, hf, State.fetchWord_eq ha]; rfl

theorem runWord_instr {w : Word} {i : Instr} (h : decode w = some i) (s : State) : runWord w s = exec i s := by
  rw [runWord, h]

theorem runWord_none {w : Word} (h : decode w = none) (s : State) : runWord w s = .next s.advance := by
  rw [runWord, h]; rfl

theorem step_idle {s : State} (h : s.agenda = []) : step s = executionStep s := by
  simp only [step, takeNext, State.nextTransaction, h, transact]

end Sys2Proof.Machine
end

