-- ==== Sys2Proof/Laws/Fields.lean ====
section
/-! SUPPORT. The operand fields of a word in plain arithmetic, and that the encoder puts each operand at its bits. -/

namespace Sys2Proof.Machine

theorem xField_val (w : Word) : (xField w).val = w.toNat / 256 % 16 := by
  simp [xField, Nat.shiftRight_eq_div_pow]

theorem yField_val (w : Word) : (yField w).val = w.toNat / 16 % 16 := by
  simp [yField, Nat.shiftRight_eq_div_pow]

theorem nField_toNat (w : Word) : (nField w).toNat = w.toNat % 16 := by
  simp [nField]

theorem nnField_toNat (w : Word) : (nnField w).toNat = w.toNat % 256 := by
  simp [nnField]

theorem nnnField_toNat (w : Word) : (nnnField w).toNat = w.toNat % 4096 := by
  simp [nnnField]

/-- The operands of an instruction stand at the bits R58 gives its format. -/
theorem encode_fields (i : Instr) : i.fields = wordFields i.format (encode i).toNat := by
  cases i <;>
    simp only [Instr.fields, Instr.format, wordFields, ← xField_val, ← yField_val, ← nField_toNat, ← nnField_toNat,
      ← nnnField_toNat, encode, xField_nibbles, yField_nibbles, nField_nibbles, xField_byte, nnField_byte,
      nnnField_addr, Reg.toFin_bits]

end Sys2Proof.Machine
end

