-- ==== Sys2Proof/Laws/PerInstr.lean ====
section
/-! SUPPORT. Facts about every instruction as syntax, one lemma per constructor. The family RowMatch: the encoding of an
instruction matches its own row of the opcode map (R61). -/

namespace Sys2Proof

/-! ### The masks of R61 keep a word's fixed bits and clear its operand bits -/

theorem nibble_and_ones (n : Nibble) : n &&& 0xF#4 = n := by decide +revert
theorem nibble_and_zero (n : Nibble) : n &&& 0#4 = 0#4 := by decide +revert

/-- REG_REG: op and the trailing nibble are fixed. -/
theorem mask_nibbles (a b c d : Nibble) : (a ++ b ++ c ++ d : Word) &&& 0xF00F#16 = a ++ 0#4 ++ 0#4 ++ d := by
  refine (BitVec.and_append (x₁ := a ++ b ++ c) (x₂ := 0xF#4 ++ 0#4 ++ 0#4) (y₁ := d) (y₂ := 0xF#4)).trans ?_
  rw [BitVec.and_append (x₁ := a ++ b) (x₂ := 0xF#4 ++ 0#4) (y₁ := c) (y₂ := 0#4),
    BitVec.and_append (x₁ := a) (x₂ := 0xF#4) (y₁ := b) (y₂ := 0#4)]
  simp only [nibble_and_ones, nibble_and_zero]

/-- DRAW: op is fixed. -/
theorem mask_draw (a b c d : Nibble) : (a ++ b ++ c ++ d : Word) &&& 0xF000#16 = a ++ 0#4 ++ 0#4 ++ 0#4 := by
  refine (BitVec.and_append (x₁ := a ++ b ++ c) (x₂ := 0xF#4 ++ 0#4 ++ 0#4) (y₁ := d) (y₂ := 0#4)).trans ?_
  rw [BitVec.and_append (x₁ := a ++ b) (x₂ := 0xF#4 ++ 0#4) (y₁ := c) (y₂ := 0#4),
    BitVec.and_append (x₁ := a) (x₂ := 0xF#4) (y₁ := b) (y₂ := 0#4)]
  simp only [nibble_and_ones, nibble_and_zero]

/-- REG_SUB: op and the trailing byte are fixed. -/
theorem mask_byte (a b : Nibble) (k : Byte) : (a ++ b ++ k : Word) &&& 0xF0FF#16 = a ++ 0#4 ++ k := by
  refine (BitVec.and_append (x₁ := a ++ b) (x₂ := 0xF#4 ++ 0#4) (y₁ := k) (y₂ := 0xFF#8)).trans ?_
  rw [BitVec.and_append (x₁ := a) (x₂ := 0xF#4) (y₁ := b) (y₂ := 0#4)]
  simp only [nibble_and_ones, nibble_and_zero]
  rw [show k &&& 0xFF#8 = k by decide +revert]

/-- REG_IMM: op is fixed. -/
theorem mask_imm (a b : Nibble) (k : Byte) : (a ++ b ++ k : Word) &&& 0xF000#16 = a ++ 0#4 ++ 0#8 := by
  refine (BitVec.and_append (x₁ := a ++ b) (x₂ := 0xF#4 ++ 0#4) (y₁ := k) (y₂ := 0#8)).trans ?_
  rw [BitVec.and_append (x₁ := a) (x₂ := 0xF#4) (y₁ := b) (y₂ := 0#4)]
  simp only [nibble_and_ones, BitVec.and_zero]

/-- ADDR: op is fixed. -/
theorem mask_addr (a : Nibble) (n : Addr12) : (a ++ n : Word) &&& 0xF000#16 = a ++ 0#12 := by
  refine (BitVec.and_append (x₁ := a) (x₂ := 0xF#4) (y₁ := n) (y₂ := 0#12)).trans ?_
  simp only [nibble_and_ones, BitVec.and_zero]

end Sys2Proof

namespace Sys2Proof.Laws.RowMatch

/-- The encoding of the instruction matches the row of the opcode map that bears its mnemonic. -/
def Statement (i : Instr) : Prop := ∃ r ∈ opcodeMap .strict, r.mnemonic = i.mnemonic ∧ r.hits (encode i) = true

/-- A row of the map by mnemonic, pattern and mask. -/
theorem of_row {i : Instr} (m p : Word) (hr : (⟨i.mnemonic, p, m⟩ : Row) ∈ opcodeMap .strict)
    (he : encode i &&& m = p) : Statement i :=
  ⟨_, hr, rfl, by simp [Row.hits, he]⟩

theorem cls : Statement (.cls) :=
  of_row 0xFFFF#16 0x00E0#16 (by simp [opcodeMap, opcodeMapLow, opcodeMapMid, opcodeMapHigh, Instr.mnemonic, mask59]) (rfl)
theorem ret : Statement (.ret) :=
  of_row 0xFFFF#16 0x00EE#16 (by simp [opcodeMap, opcodeMapLow, opcodeMapMid, opcodeMapHigh, Instr.mnemonic, mask59]) (rfl)
theorem jp (a : Addr12) : Statement (.jp a) :=
  of_row 0xF000#16 0x1000#16 (by simp [opcodeMap, opcodeMapLow, opcodeMapMid, opcodeMapHigh, Instr.mnemonic, mask59]) (mask_addr _ _)
theorem call (a : Addr12) : Statement (.call a) :=
  of_row 0xF000#16 0x2000#16 (by simp [opcodeMap, opcodeMapLow, opcodeMapMid, opcodeMapHigh, Instr.mnemonic, mask59]) (mask_addr _ _)
theorem seImm (x : Reg) (k : Byte) : Statement (.seImm x k) :=
  of_row 0xF000#16 0x3000#16 (by simp [opcodeMap, opcodeMapLow, opcodeMapMid, opcodeMapHigh, Instr.mnemonic, mask59]) (mask_imm _ _ _)
theorem sneImm (x : Reg) (k : Byte) : Statement (.sneImm x k) :=
  of_row 0xF000#16 0x4000#16 (by simp [opcodeMap, opcodeMapLow, opcodeMapMid, opcodeMapHigh, Instr.mnemonic, mask59]) (mask_imm _ _ _)
theorem seReg (x y : Reg) : Statement (.seReg x y) :=
  of_row 0xF00F#16 0x5000#16 (by simp [opcodeMap, opcodeMapLow, opcodeMapMid, opcodeMapHigh, Instr.mnemonic, mask59]) (mask_nibbles _ _ _ _)
theorem ldImm (x : Reg) (k : Byte) : Statement (.ldImm x k) :=
  of_row 0xF000#16 0x6000#16 (by simp [opcodeMap, opcodeMapLow, opcodeMapMid, opcodeMapHigh, Instr.mnemonic, mask59]) (mask_imm _ _ _)
theorem addImm (x : Reg) (k : Byte) : Statement (.addImm x k) :=
  of_row 0xF000#16 0x7000#16 (by simp [opcodeMap, opcodeMapLow, opcodeMapMid, opcodeMapHigh, Instr.mnemonic, mask59]) (mask_imm _ _ _)
theorem ldReg (x y : Reg) : Statement (.ldReg x y) :=
  of_row 0xF00F#16 0x8000#16 (by simp [opcodeMap, opcodeMapLow, opcodeMapMid, opcodeMapHigh, Instr.mnemonic, mask59]) (mask_nibbles _ _ _ _)
theorem orReg (x y : Reg) : Statement (.orReg x y) :=
  of_row 0xF00F#16 0x8001#16 (by simp [opcodeMap, opcodeMapLow, opcodeMapMid, opcodeMapHigh, Instr.mnemonic, mask59]) (mask_nibbles _ _ _ _)
theorem andReg (x y : Reg) : Statement (.andReg x y) :=
  of_row 0xF00F#16 0x8002#16 (by simp [opcodeMap, opcodeMapLow, opcodeMapMid, opcodeMapHigh, Instr.mnemonic, mask59]) (mask_nibbles _ _ _ _)
theorem xorReg (x y : Reg) : Statement (.xorReg x y) :=
  of_row 0xF00F#16 0x8003#16 (by simp [opcodeMap, opcodeMapLow, opcodeMapMid, opcodeMapHigh, Instr.mnemonic, mask59]) (mask_nibbles _ _ _ _)
theorem addReg (x y : Reg) : Statement (.addReg x y) :=
  of_row 0xF00F#16 0x8004#16 (by simp [opcodeMap, opcodeMapLow, opcodeMapMid, opcodeMapHigh, Instr.mnemonic, mask59]) (mask_nibbles _ _ _ _)
theorem subReg (x y : Reg) : Statement (.subReg x y) :=
  of_row 0xF00F#16 0x8005#16 (by simp [opcodeMap, opcodeMapLow, opcodeMapMid, opcodeMapHigh, Instr.mnemonic, mask59]) (mask_nibbles _ _ _ _)
theorem shr (x y : Reg) : Statement (.shr x y) :=
  of_row 0xF00F#16 0x8006#16 (by simp [opcodeMap, opcodeMapLow, opcodeMapMid, opcodeMapHigh, Instr.mnemonic, mask59]) (mask_nibbles _ _ _ _)
theorem subn (x y : Reg) : Statement (.subn x y) :=
  of_row 0xF00F#16 0x8007#16 (by simp [opcodeMap, opcodeMapLow, opcodeMapMid, opcodeMapHigh, Instr.mnemonic, mask59]) (mask_nibbles _ _ _ _)
theorem shl (x y : Reg) : Statement (.shl x y) :=
  of_row 0xF00F#16 0x800E#16 (by simp [opcodeMap, opcodeMapLow, opcodeMapMid, opcodeMapHigh, Instr.mnemonic, mask59]) (mask_nibbles _ _ _ _)
theorem sneReg (x y : Reg) : Statement (.sneReg x y) :=
  of_row 0xF00F#16 0x9000#16 (by simp [opcodeMap, opcodeMapLow, opcodeMapMid, opcodeMapHigh, Instr.mnemonic, mask59]) (mask_nibbles _ _ _ _)
theorem ldI (a : Addr12) : Statement (.ldI a) :=
  of_row 0xF000#16 0xA000#16 (by simp [opcodeMap, opcodeMapLow, opcodeMapMid, opcodeMapHigh, Instr.mnemonic, mask59]) (mask_addr _ _)
theorem jpV0 (a : Addr12) : Statement (.jpV0 a) :=
  of_row 0xF000#16 0xB000#16 (by simp [opcodeMap, opcodeMapLow, opcodeMapMid, opcodeMapHigh, Instr.mnemonic, mask59]) (mask_addr _ _)
theorem rnd (x : Reg) (k : Byte) : Statement (.rnd x k) :=
  of_row 0xF000#16 0xC000#16 (by simp [opcodeMap, opcodeMapLow, opcodeMapMid, opcodeMapHigh, Instr.mnemonic, mask59]) (mask_imm _ _ _)
theorem drw (x y : Reg) (n : Nibble) : Statement (.drw x y n) :=
  of_row 0xF000#16 0xD000#16 (by simp [opcodeMap, opcodeMapLow, opcodeMapMid, opcodeMapHigh, Instr.mnemonic, mask59]) (mask_draw _ _ _ _)
theorem skp (x : Reg) : Statement (.skp x) :=
  of_row 0xF0FF#16 0xE09E#16 (by simp [opcodeMap, opcodeMapLow, opcodeMapMid, opcodeMapHigh, Instr.mnemonic, mask59]) (mask_byte _ _ _)
theorem sknp (x : Reg) : Statement (.sknp x) :=
  of_row 0xF0FF#16 0xE0A1#16 (by simp [opcodeMap, opcodeMapLow, opcodeMapMid, opcodeMapHigh, Instr.mnemonic, mask59]) (mask_byte _ _ _)
theorem ldVxDt (x : Reg) : Statement (.ldVxDt x) :=
  of_row 0xF0FF#16 0xF007#16 (by simp [opcodeMap, opcodeMapLow, opcodeMapMid, opcodeMapHigh, Instr.mnemonic, mask59]) (mask_byte _ _ _)
theorem ldVxK (x : Reg) : Statement (.ldVxK x) :=
  of_row 0xF0FF#16 0xF00A#16 (by simp [opcodeMap, opcodeMapLow, opcodeMapMid, opcodeMapHigh, Instr.mnemonic, mask59]) (mask_byte _ _ _)
theorem ldDtVx (x : Reg) : Statement (.ldDtVx x) :=
  of_row 0xF0FF#16 0xF015#16 (by simp [opcodeMap, opcodeMapLow, opcodeMapMid, opcodeMapHigh, Instr.mnemonic, mask59]) (mask_byte _ _ _)
theorem ldStVx (x : Reg) : Statement (.ldStVx x) :=
  of_row 0xF0FF#16 0xF018#16 (by simp [opcodeMap, opcodeMapLow, opcodeMapMid, opcodeMapHigh, Instr.mnemonic, mask59]) (mask_byte _ _ _)
theorem addI (x : Reg) : Statement (.addI x) :=
  of_row 0xF0FF#16 0xF01E#16 (by simp [opcodeMap, opcodeMapLow, opcodeMapMid, opcodeMapHigh, Instr.mnemonic, mask59]) (mask_byte _ _ _)
theorem ldF (x : Reg) : Statement (.ldF x) :=
  of_row 0xF0FF#16 0xF029#16 (by simp [opcodeMap, opcodeMapLow, opcodeMapMid, opcodeMapHigh, Instr.mnemonic, mask59]) (mask_byte _ _ _)
theorem ldB (x : Reg) : Statement (.ldB x) :=
  of_row 0xF0FF#16 0xF033#16 (by simp [opcodeMap, opcodeMapLow, opcodeMapMid, opcodeMapHigh, Instr.mnemonic, mask59]) (mask_byte _ _ _)
theorem storeRegs (x : Reg) : Statement (.storeRegs x) :=
  of_row 0xF0FF#16 0xF055#16 (by simp [opcodeMap, opcodeMapLow, opcodeMapMid, opcodeMapHigh, Instr.mnemonic, mask59]) (mask_byte _ _ _)
theorem loadRegs (x : Reg) : Statement (.loadRegs x) :=
  of_row 0xF0FF#16 0xF065#16 (by simp [opcodeMap, opcodeMapLow, opcodeMapMid, opcodeMapHigh, Instr.mnemonic, mask59]) (mask_byte _ _ _)

end Sys2Proof.Laws.RowMatch
end

