-- ==== Sys2Proof/Tests/Slice0.lean ====
section
/-! SUPPORT. The model's own tests: the well-formedness smoke tests, one word per instruction written out bit by bit
from 30_encoding.md R61, vectors of 95_test_vectors.md (their number stands in each docstring), and the witnesses that
the hypotheses of the statements can be met. -/

namespace Sys2Proof.Tests

open Sys2Proof Sys2Proof.Machine

/-! ### Well-formedness: an ill-formed term for each check (R58, R59) -/

theorem test_wf_x_too_big : Fields.fits { x := 16, nn := 5 } .regImm = false := by decide
theorem test_wf_y_too_big : Fields.fits { x := 1, y := 16 } .regReg = false := by decide
theorem test_wf_n_too_big : Fields.fits { x := 1, y := 2, n := 16 } .draw = false := by decide
theorem test_wf_nn_too_big : Fields.fits { x := 1, nn := 256 } .regImm = false := by decide
theorem test_wf_nnn_too_big : Fields.fits { nnn := 4096 } .addr = false := by decide
theorem test_wf_sub_x_too_big : Fields.fits { x := 16 } .regSub = false := by decide
theorem test_wf_unused_in_fixed : Fields.fits { x := 1 } .fixed = false := by decide
theorem test_wf_unused_in_addr : Fields.fits { x := 1, nnn := 5 } .addr = false := by decide
theorem test_wf_unused_in_draw : Fields.fits { x := 1, y := 2, n := 3, nn := 1 } .draw = false := by decide
theorem test_wf_largest : Instr.wellFormed (.drw 15 15 15#4) = true := by decide

/-! ### Decoding: one word per instruction, written out bit by bit (R61) -/

theorem test_decode_cls : decode 0b0000000011100000#16 = some .cls := by decide
theorem test_decode_ret : decode 0b0000000011101110#16 = some .ret := by decide
theorem test_decode_jp : decode 0b0001101010111100#16 = some (.jp 0xABC#12) := by decide
theorem test_decode_call : decode 0b0010010000000001#16 = some (.call 0x401#12) := by decide
theorem test_decode_seImm : decode 0b0011001110000101#16 = some (.seImm 3 0x85#8) := by decide
theorem test_decode_sneImm : decode 0b0100110000010010#16 = some (.sneImm 12 0x12#8) := by decide
theorem test_decode_seReg : decode 0b0101000100100000#16 = some (.seReg 1 2) := by decide
theorem test_decode_ldImm : decode 0b0110101010011100#16 = some (.ldImm 10 0x9C#8) := by decide
theorem test_decode_addImm : decode 0b0111001100000101#16 = some (.addImm 3 0x05#8) := by decide
theorem test_decode_ldReg : decode 0b1000000100100000#16 = some (.ldReg 1 2) := by decide
theorem test_decode_orReg : decode 0b1000000100100001#16 = some (.orReg 1 2) := by decide
theorem test_decode_andReg : decode 0b1000000100100010#16 = some (.andReg 1 2) := by decide
theorem test_decode_xorReg : decode 0b1000000100100011#16 = some (.xorReg 1 2) := by decide
theorem test_decode_addReg : decode 0b1000000100100100#16 = some (.addReg 1 2) := by decide
theorem test_decode_subReg : decode 0b1000000100100101#16 = some (.subReg 1 2) := by decide
theorem test_decode_shr : decode 0b1000000100100110#16 = some (.shr 1 2) := by decide
theorem test_decode_subn : decode 0b1000000100100111#16 = some (.subn 1 2) := by decide
theorem test_decode_shl : decode 0b1000000100101110#16 = some (.shl 1 2) := by decide
theorem test_decode_sneReg : decode 0b1001000100100000#16 = some (.sneReg 1 2) := by decide
theorem test_decode_ldI : decode 0b1010001100000000#16 = some (.ldI 0x300#12) := by decide
theorem test_decode_jpV0 : decode 0b1011111110000000#16 = some (.jpV0 0xF80#12) := by decide
theorem test_decode_rnd : decode 0b1100001100001111#16 = some (.rnd 3 0x0F#8) := by decide
theorem test_decode_drw : decode 0b1101000000010010#16 = some (.drw 0 1 2#4) := by decide
theorem test_decode_skp : decode 0b1110010110011110#16 = some (.skp 5) := by decide
theorem test_decode_sknp : decode 0b1110010110100001#16 = some (.sknp 5) := by decide
theorem test_decode_ldVxDt : decode 0b1111001000000111#16 = some (.ldVxDt 2) := by decide
theorem test_decode_ldVxK : decode 0b1111001100001010#16 = some (.ldVxK 3) := by decide
theorem test_decode_ldDtVx : decode 0b1111001000010101#16 = some (.ldDtVx 2) := by decide
theorem test_decode_ldStVx : decode 0b1111001000011000#16 = some (.ldStVx 2) := by decide
theorem test_decode_addI : decode 0b1111000100011110#16 = some (.addI 1) := by decide
theorem test_decode_ldF : decode 0b1111001000101001#16 = some (.ldF 2) := by decide
theorem test_decode_ldB : decode 0b1111010000110011#16 = some (.ldB 4) := by decide
theorem test_decode_storeRegs : decode 0b1111000001010101#16 = some (.storeRegs 0) := by decide
theorem test_decode_loadRegs : decode 0b1111111101100101#16 = some (.loadRegs 15) := by decide

/-- X3: 0x5121 is unassigned under `strict`, and is 5XY0 under `ignore`. -/
theorem test_decode_low_nibble : decodeWith .strict 0x5121#16 = none ∧
    decodeWith .ignore 0x5121#16 = some (.seReg 1 2) := by decide

/-- X2, X4, X5: unassigned words, by name. -/
theorem test_decode_unassigned : decode 0x0123#16 = none ∧ decode 0x8008#16 = none ∧ decode 0xE0FF#16 = none ∧
    decode 0xF0FF#16 = none ∧ decodeBytes [0xFF#8, 0xFF#8] = .unassigned 0xFFFF#16 := by decide

/-- A word is two bytes, the high byte first (R46, R57). -/
theorem test_decode_bytes : decodeBytes [0x60#8, 0x07#8, 0x12#8] = .instr (.ldImm 0 0x07#8) ∧
    decodeBytes [0x60#8] = .truncated 1 := by decide

theorem test_decode_table_word : decodeTableWord 16 0x812E = some (.shl 1 2) ∧
    decodeTableWord 16 0x00EE = some .ret ∧ decodeTableWord 16 0x0000 = none := by decide

/-! ### Helpers: a word at PC, registers set, and a view of the state after one step -/

/-- `s` about to run the word `w`. -/
def placed (w : Nat) (s : State := State.reset) : State := s.withFetchWord 16 w

/-- The power-on state with some registers set. -/
def regs (l : List (Reg × Byte)) : State := l.foldl (fun s p => s.setReg p.1 p.2) State.reset

/-- What one step leaves, seen through `f`. -/
def after {α : Type} (s : State) (f : State → α) : Option α :=
  match step s with
  | .next t => some (f t)
  | _ => none

/-- PC and `changed`. -/
def flow (t : State) : Word × Bool := (t.pc, t.changed)

/-- Two registers. -/
def two (a b : Reg) (t : State) : Byte × Byte := (t.reg a, t.reg b)

/-! ### Execution cycle -/

/-- X1: power-on, no load: 0x0000 at 0x200 is a no-op. -/
theorem test_nop_from_reset : after State.reset flow = some (0x202#16, false) := by decide

/-- X3: 0x5121 with V1 = V2 does not skip under `strict`, and skips under `ignore`. -/
theorem test_low_nibble_step : after (placed 0x5121) (fun t => t.pc) =
    some (match decodePolicy with | .strict => 0x202#16 | .ignore => 0x204#16) := by
  cases h : decodePolicy <;> simp only [after, step, takeNext, State.nextTransaction, transact, executionStep, runWord,
    decode, h] <;> decide

/-- X6: a fetch at 0xFFE. -/
theorem test_fetch_at_the_end : after (placed 0x6007 { State.reset with pc := 0xFFE#16 })
    (fun t => (t.reg 0, t.pc)) = some (0x07#8, 0x1000#16) := by decide

/-- X7: a fetch at 0x1000. -/
theorem test_fetch_past : after { State.reset with pc := 0x1000#16 } (fun t => (t.fault, t.pc)) =
    some (⟨.fetchOutOfRange, 0x1000#16, 0#16, false, 0x1000#17⟩, 0x1000#16) := by decide

/-- X8: a fetch at 0xFFF. -/
theorem test_fetch_straddles : after { State.reset with pc := 0xFFF#16 } (fun t => t.fault) =
    some ⟨.fetchOutOfRange, 0xFFF#16, 0#16, false, 0x1000#17⟩ := by decide

/-- X9: an odd PC. -/
theorem test_odd_pc : after (placed 0x6122 { State.reset with pc := 0x201#16 }) (fun t => (t.reg 1, t.pc)) =
    some (0x22#8, 0x203#16) := by decide

/-! ### Control flow -/

/-- CF1. -/
theorem test_ret_underflow : after (placed 0x00EE) (fun t => (t.fault, t.pc)) =
    some (⟨.stackUnderflow, 0x200#16, 0x00EE#16, true, 0#17⟩, 0x200#16) := by decide
/-- CF2. -/
theorem test_ret : after (placed 0x00EE { State.reset with pc := 0x500#16, stack := [0x206#16, 0x30A#16] })
    (fun t => (t.pc, t.stack)) = some (0x30A#16, [0x206#16]) := by decide
/-- CF4. -/
theorem test_jp : after (placed 0x1FFF) flow = some (0xFFF#16, false) := by decide
/-- CF8: a call at 0xFFE pushes 0x1000. -/
theorem test_call : after (placed 0x2ABC { State.reset with pc := 0xFFE#16 }) (fun t => (t.pc, t.stack)) =
    some (0xABC#16, [0x1000#16]) := by decide
/-- CF7. -/
theorem test_call_overflow : after (placed 0x2300 { State.reset with stack := List.replicate 16 0x206#16 })
    (fun t => (t.fault, t.pc)) = some (⟨.stackOverflow, 0x200#16, 0x2300#16, true, 16#17⟩, 0x200#16) := by decide
/-- CF12: a skip at 0xFFC leaves PC = 0x1000. -/
theorem test_seImm : after (placed 0x3305 { regs [(3, 5#8)] with pc := 0xFFC#16 }) flow =
    some (0x1000#16, false) := by decide
/-- CF10. -/
theorem test_seImm_no_skip : after (placed 0x3305 { regs [(3, 4#8)] with pc := 0x208#16 }) flow =
    some (0x20A#16, false) := by decide
/-- CF13. -/
theorem test_sneImm : after (placed 0x4305 { regs [(3, 4#8)] with pc := 0x208#16 }) flow =
    some (0x20C#16, false) := by decide
/-- CF15. -/
theorem test_seReg : after (placed 0x5120 (regs [(1, 0x7F#8), (2, 0x7F#8)])) flow = some (0x204#16, false) := by decide
/-- CF16. -/
theorem test_seReg_no_skip : after (placed 0x5120 (regs [(1, 0x7F#8), (2, 0x80#8)])) flow =
    some (0x202#16, false) := by decide
/-- CF18. -/
theorem test_sneReg : after (placed 0x9120 (regs [(1, 0x7F#8), (2, 0x80#8)])) flow = some (0x204#16, false) := by decide
/-- CF20: V0 is added, not V3. -/
theorem test_jpV0 : after (placed 0xB300 (regs [(0, 0x10#8), (3, 0x99#8)])) flow = some (0x310#16, false) := by decide
/-- CF21: no reduction modulo 0x1000. -/
theorem test_jpV0_past : after (placed 0xBF80 (regs [(0, 0xFF#8)])) flow = some (0x107F#16, false) := by decide

/-! ### Registers and ALU -/

/-- A1. -/
theorem test_ldImm : after (placed 0x6A9C) (two 0xA vf) = some (0x9C#8, 0#8) := by decide
/-- A3. -/
theorem test_addImm : after (placed 0x7305 (regs [(3, 0xFE#8), (vf, 0xAA#8)])) (two 3 vf) =
    some (0x03#8, 0xAA#8) := by decide
/-- A4. -/
theorem test_addImm_vf : after (placed 0x7F01 (regs [(vf, 0xFF#8)])) (two vf 0) = some (0#8, 0#8) := by decide
/-- A5. -/
theorem test_ldReg : after (placed 0x8120 (regs [(2, 0x33#8)])) (two 1 2) = some (0x33#8, 0x33#8) := by decide
/-- A6. -/
theorem test_orReg : after (placed 0x8121 (regs [(1, 0x0F#8), (2, 0xF0#8), (vf, 1#8)])) (two 1 vf) =
    some (0xFF#8, 1#8) := by decide
/-- A7. -/
theorem test_andReg : after (placed 0x8122 (regs [(1, 0x3C#8), (2, 0x0F#8), (vf, 1#8)])) (two 1 vf) =
    some (0x0C#8, 1#8) := by decide
/-- A8. -/
theorem test_xorReg : after (placed 0x8123 (regs [(1, 0x3C#8), (2, 0x0F#8)])) (two 1 vf) =
    some (0x33#8, 0#8) := by decide
/-- A13: the sum is overwritten by the carry. -/
theorem test_addReg_vf : after (placed 0x8F14 (regs [(vf, 0x80#8), (1, 0x90#8)])) (two vf 1) =
    some (1#8, 0x90#8) := by decide
/-- A14: the addend is the old VF. -/
theorem test_addReg_old_vf : after (placed 0x81F4 (regs [(vf, 1#8), (1, 0xFF#8)])) (two 1 vf) =
    some (0#8, 1#8) := by decide
/-- A15: equal operands are no borrow. -/
theorem test_subReg : after (placed 0x8125 (regs [(1, 0x0A#8), (2, 0x0A#8)])) (two 1 vf) = some (0#8, 1#8) := by decide
/-- A17. -/
theorem test_subReg_vf : after (placed 0x8F15 (regs [(vf, 0x05#8), (1, 0x0A#8)])) (two vf 1) =
    some (0#8, 0x0A#8) := by decide
/-- S7: the old V1 is not read. -/
theorem test_shr : after (placed 0x8126 (regs [(1, 0x99#8), (2, 0x55#8)])) (two 1 vf) = some (0x2A#8, 1#8) := by decide
/-- A20. -/
theorem test_shr_vf : after (placed 0x8FF6 (regs [(vf, 2#8)])) (two vf 0) = some (0#8, 0#8) := by decide
/-- A22. -/
theorem test_subn : after (placed 0x8127 (regs [(1, 0x0F#8), (2, 0x0A#8)])) (two 1 vf) =
    some (0xFB#8, 0#8) := by decide
/-- A23. -/
theorem test_subn_same : after (placed 0x8117 (regs [(1, 0x42#8)])) (two 1 vf) = some (0#8, 1#8) := by decide
/-- A24. -/
theorem test_shl : after (placed 0x812E (regs [(2, 0xAA#8)])) (two 1 vf) = some (0x54#8, 1#8) := by decide
/-- A25. -/
theorem test_shl_no_carry : after (placed 0x812E (regs [(2, 0x7F#8)])) (two 1 vf) = some (0xFE#8, 0#8) := by decide
/-- A28: whatever the random byte is. -/
theorem test_rnd : after (placed 0xC300) (fun t => t.reg 3) = some 0#8 :=
  (rfl : _ = some (Config.rnd 0 &&& 0x00#8)).trans (congrArg some BitVec.and_zero)

/-! ### Index register and memory -/

/-- M1. -/
theorem test_ldI : after (placed 0xAFFF) (fun t => t.i) = some 0x0FFF#16 := by decide
/-- M3. -/
theorem test_addI : after (placed 0xF11E { regs [(1, 1#8)] with i := 0x0FFF#16 }) (fun t => (t.i, t.reg vf)) =
    some (0x1000#16, 1#8) := by decide
/-- M6: VF is the operand, and the flag is written last. -/
theorem test_addI_vf : after (placed 0xFF1E { regs [(vf, 0x10#8)] with i := 0x0100#16 })
    (fun t => (t.i, t.reg vf)) = some (0x0110#16, 0#8) := by decide
/-- M9: no mask. -/
theorem test_ldF : after (placed 0xF229 (regs [(2, 0xFF#8)])) (fun t => t.i) = some 0x04FB#16 := by decide
/-- S9. -/
theorem test_ldB : after (placed 0xF433 { regs [(4, 0x9C#8)] with i := 0x300#16 })
    (fun t => ((List.range 4).map fun k => t.byte (0x300 + k), t.i)) =
    some ([1#8, 5#8, 6#8, 0#8], 0x300#16) := by decide
/-- M14. -/
theorem test_ldB_past : after (placed 0xF433 { regs [(4, 9#8)] with i := 0xFFE#16 })
    (fun t => (t.fault, t.byte 0xFFE)) =
    some (⟨.memOutOfRange, 0x200#16, 0xF433#16, true, 0x1000#17⟩, 0#8) := by decide
/-- M17. -/
theorem test_storeRegs : after (placed 0xF255 { regs [(0, 1#8), (1, 2#8), (2, 3#8)] with i := 0xFFD#16 })
    (fun t => (List.range 3).map fun k => t.byte (0xFFD + k)) = some [1#8, 2#8, 3#8] := by decide
/-- M18. -/
theorem test_storeRegs_past : after (placed 0xF255 { regs [(0, 7#8)] with i := 0xFFE#16 })
    (fun t => (t.fault, t.byte 0xFFE)) =
    some (⟨.memOutOfRange, 0x200#16, 0xF255#16, true, 0x1000#17⟩, 0#8) := by decide
/-- M21: glyph 0. -/
theorem test_loadRegs : after (placed 0xF465) (fun t => (List.range 6).map fun k => t.v.toList.getD k 0#8) =
    some [0xF0#8, 0x90#8, 0x90#8, 0x90#8, 0xF0#8, 0#8] := by decide
/-- M20. -/
theorem test_loadRegs_past : after (placed 0xFF65 { State.reset with i := 0xFF1#16 }) (fun t => t.fault) =
    some ⟨.memOutOfRange, 0x200#16, 0xFF65#16, true, 0x1000#17⟩ := by decide

/-! ### Display -/

/-- A framebuffer with some pixels on. -/
def pixels (l : List (Fin 64 × Fin 32)) : Framebuffer := l.foldl (fun f p => f.toggle p.1 p.2) Framebuffer.off

/-- A state about to draw at (v0, v1) from 0x300, where `bs` stand. -/
def drawing (w : Nat) (v0 v1 : Byte) (bs : List Byte) (fb : Framebuffer := Framebuffer.off) : State :=
  placed w { regs [(0, v0), (1, v1)] with i := 0x300#16, mem := State.reset.memWith 0x300 bs, fb := fb }

/-- S2 (a), DP12. -/
theorem test_cls : after (placed 0x00E0 { regs [(vf, 7#8)] with fb := pixels [(0, 0), (63, 31)] })
    (fun t => (t.fb.pixel 0 0, t.fb.pixel 63 31, flow t, t.reg vf)) =
    some (false, false, (0x202#16, true), 7#8) := by decide
/-- DP4: both edges wrap. -/
theorem test_drw_wraps : after (drawing 0xD012 60#8 31#8 [0xFF#8, 0xFF#8])
    (fun t => ([59, 60, 63, 0, 3, 4].map fun x => (t.fb.pixel x 31, t.fb.pixel x 0, t.fb.pixel x 1), t.reg vf)) =
    some ([(false, false, false), (true, true, false), (true, true, false), (true, true, false),
      (true, true, false), (false, false, false)], 0#8) := by decide
/-- DP6: collision on the wrapped side. -/
theorem test_drw_collision : after (drawing 0xD011 60#8 0#8 [0xFF#8] (pixels [(0, 0)]))
    (fun t => ([59, 60, 63, 0, 1, 3, 4].map fun x => t.fb.pixel x 0, t.reg vf)) =
    some ([false, true, true, false, true, true, false], 1#8) := by decide
/-- DP5: the same bits under `clip`. -/
theorem test_draw_clips : ([59, 60, 63, 0, 3].map fun x =>
      ((drawSprite .clip 60 31 [0xFF#8, 0xFF#8] Framebuffer.off).fb.pixel x 31,
       (drawSprite .clip 60 31 [0xFF#8, 0xFF#8] Framebuffer.off).fb.pixel x 0)) =
    [(false, false), (true, true), (true, true), (false, false), (false, false)] := by decide

/-! ### Keypad and timers -/

/-- K1. -/
theorem test_skp : after (placed 0xE59E { regs [(5, 0x0A#8)] with pc := 0x220#16, key := 0x0400#16 }) flow =
    some (0x224#16, false) := by decide
/-- K3. -/
theorem test_skp_index : after (placed 0xE59E { regs [(5, 0x10#8)] with pc := 0x220#16 }) (fun t => (t.fault, t.pc)) =
    some (⟨.keyIndexOutOfRange, 0x220#16, 0xE59E#16, true, 0x10#17⟩, 0x220#16) := by decide
/-- K4. -/
theorem test_sknp : after (placed 0xE5A1 { regs [(5, 0x0A#8)] with pc := 0x220#16 }) flow =
    some (0x224#16, false) := by decide
/-- K6. -/
theorem test_sknp_index : after (placed 0xE5A1 { regs [(5, 0xFF#8)] with pc := 0x220#16 }) (fun t => t.fault) =
    some ⟨.keyIndexOutOfRange, 0x220#16, 0xE5A1#16, true, 0xFF#17⟩ := by decide
/-- K10. -/
theorem test_ldVxDt : after (placed 0xF207 { State.reset with dt := 0x3C#8 }) (fun t => t.reg 2) =
    some 0x3C#8 := by decide
/-- K7. -/
theorem test_ldVxK_waits : after (placed 0xF30A (regs [(3, 0x21#8)])) (fun t => (t.pc, t.reg 3)) =
    some (0x200#16, 0x21#8) := by decide
/-- K8. -/
theorem test_ldVxK_lowest : after (placed 0xF30A { State.reset with key := 0x0210#16 }) (fun t => (t.pc, t.reg 3)) =
    some (0x202#16, 4#8) := by decide
/-- K11. -/
theorem test_ldDtVx : after (placed 0xF215 (regs [(2, 0x3C#8)])) (fun t => t.dt) = some 0x3C#8 := by decide
/-- K13. -/
theorem test_ldStVx : after (placed 0xF218 (regs [(2, 5#8)])) (fun t => respond .readSound t) =
    some (.sound 5#8) := by decide

/-! ### Transactions -/

/-- FONT is an argument of the power-on state (R41): a core built with another one reads that one, after reset too. -/
theorem test_other_font :
    ([0, 79, 80].map (State.powerOn (Vector.replicate 80 0xAA#8)).byte = [0xAA#8, 0xAA#8, 0#8]) ∧
    ([0, 79, 80].map (State.powerOn (Vector.replicate 80 0xAA#8)).doReset.byte = [0xAA#8, 0xAA#8, 0#8]) := by decide

/-- K15: DT stays at 0, ST goes down. -/
theorem test_tick : after { State.reset with st := 2#8, agenda := [.tick] } (fun t => (t.dt, t.st, t.pc)) =
    some (0#8, 1#8, 0x200#16) := by decide
/-- S1. -/
theorem test_load : after { State.reset with agenda := [.load [0x12#8, 0x34#8, 0xAB#8]] }
    (fun t => ((List.range 5).map fun k => t.byte (0x1FF + k), t.pc)) =
    some ([0#8, 0x12#8, 0x34#8, 0xAB#8, 0#8], 0x200#16) := by decide
/-- L7: KEY stays, DT goes. -/
theorem test_reset : after { State.reset with key := 8#16, dt := 9#8, agenda := [.reset] }
    (fun t => (t.key, t.dt, t.pc)) = some (8#16, 0#8, 0x200#16) := by decide
/-- The word a step runs after `withFetchWord` is the one placed, also from a HALTED core past the end of memory. -/
theorem test_withFetchWord : after (placed 0x6A9C { State.reset with
      pc := 0x1000#16, fault := ⟨.fetchOutOfRange, 0x1000#16, 0#16, false, 0x1000#17⟩, agenda := [.tick] })
    (fun t => (t.reg 0xA, t.pc)) = some (0x9C#8, 0x202#16) := by decide

/-! ### Witnesses: the hypotheses of each statement are met, each clause at a boundary -/

/-- Power-on memory reads zero past FONT. -/
theorem reset_read_zero (a : Nat) (h : 80 ≤ a) : State.reset.byte a = 0#8 :=
  List.getD_eq_default (d := 0#8) (l := defaultFont.toList) (n := a) h

/-- A stack of `n` entries. -/
def stacked (n : Nat) : List Word := List.replicate n 0x206#16

/-- The power-on state with I set. -/
def withI (i : Word) (s : State := State.reset) : State := { s with i := i }

theorem witness_DecoderSelectsTheMatchingRow : decodeWith .strict 0x5120#16 = some (.seReg 1 2) ∧
    decodeWith .strict 0x5121#16 = none := by decide
theorem witness_AtMostOneRowMatches : ∃ r ∈ opcodeMap .strict, r.hits 0x00EE#16 = true := by decide
theorem witness_EncodeOfDecodeIsTheWord : decodeWith .strict 0xD012#16 = some (.drw 0 1 2#4) := by decide
theorem witness_LowNibbleOfGroups5And9 : (opField 0x5120#16 = 0x5#4 ∧ nField 0x5120#16 = 0#4) ∧
    (opField 0x512F#16 = 0x5#4 ∧ nField 0x512F#16 ≠ 0#4) ∧ (opField 0x9121#16 = 0x9#4 ∧ nField 0x9121#16 ≠ 0#4) ∧
    (opField 0x8121#16 ≠ 0x5#4 ∧ opField 0x8121#16 ≠ 0x9#4) := by decide
theorem witness_StepRunsTheDecodedInstruction :
    (placed 0x6A9C { State.reset with pc := 0xFFE#16 }).Fetches 0x6A9C#16 ∧
      decode 0x6A9C#16 = some (.ldImm 0xA 0x9C#8) := by decide
theorem witness_UnassignedWordOnlyAdvances : State.reset.Fetches 0x0000#16 ∧
    ∀ r ∈ opcodeMap decodePolicy, r.hits 0x0000#16 = false := by
  refine ⟨by decide, ?_⟩
  cases decodePolicy <;> decide
/-- A HALTED core, after X7. -/
def haltedCore : State :=
  { State.reset with pc := 0x1000#16, fault := ⟨.fetchOutOfRange, 0x1000#16, 0#16, false, 0x1000#17⟩ }
theorem witness_HaltedStepChangesNothing : haltedCore.agenda = [] ∧ haltedCore.fault.cause ≠ .none := by decide
theorem witness_FetchReadsTwoBytesOrFaults :
    { State.reset with pc := 0xFFE#16 }.pc.toNat ≤ 0xFFE ∧
    ({ State.reset with pc := 0xFFF#16 }.pc.toNat > 0xFFE ∧ State.reset.agenda = [] ∧
      State.reset.fault.cause = .none) ∧ { State.reset with pc := 0x107F#16 }.pc.toNat > 0xFFE := by decide
/-- A fetch that faults (X8) and an instruction that faults (CF1). -/
theorem witness_FaultsArePrecise :
    (∃ t, step { State.reset with pc := 0xFFF#16 } = .next t ∧ t.fault.cause ≠ .none) ∧
    ∃ t, (placed 0x00EE).agenda = [] ∧ (placed 0x00EE).fault.cause = .none ∧ step (placed 0x00EE) = .next t ∧
      t.fault.cause ≠ .none :=
  ⟨⟨_, rfl, by decide⟩, _, rfl, rfl, rfl, by decide⟩
/-- Each cause of the table, and its condition just missed. -/
theorem witness_FaultTable :
    faultOf .ret State.reset = some (.stackUnderflow, 0) ∧
    faultOf (.call 0) { State.reset with stack := stacked 16 } = some (.stackOverflow, 16) ∧
    faultOf (.call 0) { State.reset with stack := stacked 15 } = none ∧
    faultOf (.drw 0 1 2#4) (withI 0xFFF#16) = some (.memOutOfRange, 0x1000) ∧
    faultOf (.drw 0 1 1#4) (withI 0xFFF#16) = none ∧ faultOf (.drw 0 1 0#4) (withI 0xFFFF#16) = none ∧
    faultOf (.ldB 4) (withI 0x1005#16) = some (.memOutOfRange, 0x1005) ∧
    faultOf (.ldB 4) (withI 0xFFD#16) = none ∧
    faultOf (.skp 5) (regs [(5, 0x10#8)]) = some (.keyIndexOutOfRange, 0x10) ∧
    faultOf (.sknp 5) (regs [(5, 0x0F#8)]) = none := by decide
theorem witness_PcAfterEachInstruction : { State.reset with pc := 0xFFE#16 }.pc.toNat ≤ 0xFFE ∧
    faultOf .ret State.reset ≠ none ∧ faultOf .ret { State.reset with stack := [0x1000#16] } = none := by decide
theorem witness_PcAfterEachInstruction_unassigned : State.reset.Fetches 0x0000#16 ∧ decode 0x0000#16 = none := by
  decide
theorem witness_ChangedOnlyByClearAndDraw : (placed 0x00E0).agenda = [] ∧ (placed 0x00E0).fault.cause = .none ∧
    ∃ t, step (placed 0x00E0) = .next t ∧ t.fault.cause = .none ∧ t.changed = true :=
  ⟨rfl, rfl, _, rfl, rfl, rfl⟩
/-- The other side: 6XNN reports no change. -/
theorem witness_ChangedOnlyByClearAndDraw_other :
    ∃ t, step (placed 0x6A9C) = .next t ∧ t.fault.cause = .none ∧ t.changed = false := ⟨_, rfl, rfl, rfl⟩
theorem witness_InvariantKeptByEveryStep : (placed 0x2ABC).Inv ∧ ∃ t, step (placed 0x2ABC) = .next t :=
  ⟨{ mem_wf := by decide, stack_le := by decide, pc_le := by decide, rom_le := by decide,
     stack_addr := fun ra h => absurd (show ra ∈ ([] : List Word) from h) List.not_mem_nil,
     run_clear := fun _ => rfl, halted_pc := fun h => (h rfl).elim, halted_word := fun h => (h rfl).elim }, _, rfl⟩
theorem witness_ResetTransaction : { State.reset with rom := List.replicate 3584 0xAB#8 }.rom.length ≤ 3584 :=
  (List.length_replicate (n := 3584) (a := 0xAB#8)).le
theorem witness_LoadTransaction : (List.replicate 3585 0xAB#8).length > 3584 ∧
    (List.replicate 3584 0xAB#8).length ≤ 3584 ∧ State.reset.canonical = true :=
  ⟨by rw [List.length_replicate]; decide, by rw [List.length_replicate], rfl⟩
theorem witness_OneTransactionAtATime : { State.reset with agenda := [.tick, .readFb] }.agenda = .tick :: [.readFb] ∧
    State.reset.agenda = [] := by decide
theorem witness_StepKeepsKeysRomAndTimers : ∃ t, transact .step (placed 0xF215) = .next t := ⟨_, rfl⟩
theorem witness_FontIsNeverChanged : ∃ t, step { State.reset with agenda := [.reset] } = .next t := ⟨_, rfl⟩
/-- From 0x200 all the way to 0x1000 over power-on memory. -/
theorem witness_ZeroBytesRunToTheFetchFault : State.reset.agenda = [] ∧ State.reset.fault.cause = .none ∧
    State.reset.changed = false ∧ State.reset.pc.toNat + 2 * 0x700 = 0x1000 ∧
    ∀ a, State.reset.pc.toNat ≤ a → a < 0x1000 → State.reset.byte a = 0x00#8 :=
  ⟨rfl, rfl, rfl, rfl, fun a h _ => reset_read_zero a (Nat.le_trans (by decide) h)⟩
theorem witness_SelfJumpEndsARun : (placed 0x1200).agenda = [] ∧ (placed 0x1200).EndedNormally := by decide
theorem witness_ReturnPopsTheStack : State.reset.stack = [] ∧
    { State.reset with stack := stacked 16 }.stack = stacked 15 ++ [0x206#16] := by decide
theorem witness_CallPushesTheAdvancedPc : { State.reset with stack := stacked 16 }.stack.length = 16 ∧
    { State.reset with stack := stacked 15 }.stack.length < 16 := by decide
theorem witness_ReturnUndoesCall : { State.reset with stack := stacked 15 }.stack.length < 16 ∧
    ∃ t, exec (.call 0xABC#12) { State.reset with stack := stacked 15 } = .next t := ⟨by decide, _, rfl⟩
/-- A register that is not VF; with VF itself the flag wins. -/
theorem witness_AddSetsCarry : (14 : Reg) ≠ vf := by decide
theorem witness_SubtractSetsNoBorrow : (0 : Reg) ≠ vf := by decide
theorem witness_ShiftsReadVy : (1 : Reg) ≠ vf := by decide
theorem witness_RegistersWrittenByEachInstruction : ∃ t, exec (.loadRegs 3) (withI 0xFFC#16) = .next t := ⟨_, rfl⟩
theorem witness_RegistersWrittenByEachInstruction_waiting :
    (∃ t, exec (.ldVxK 3) State.reset = .next t) ∧ State.reset.key = 0#16 := ⟨⟨_, rfl⟩, by decide⟩
theorem witness_DecimalDigitsStored : (withI 0xFFE#16).base + 2 > 0xFFF ∧ (withI 0xFFD#16).base + 2 ≤ 0xFFF ∧
    (withI 0xFFD#16).canonical = true := by decide
theorem witness_RegistersStored : (withI 0xFF1#16).base + (15 : Reg).val > 0xFFF ∧
    (withI 0xFF0#16).base + (15 : Reg).val ≤ 0xFFF ∧ (withI 0xFF0#16).canonical = true ∧ (15 : Reg) ≤ 15 := by decide
theorem witness_RegistersLoaded : (withI 0x1000#16).base + (0 : Reg).val > 0xFFF ∧
    (withI 0xFFF#16).base + (0 : Reg).val ≤ 0xFFF ∧ (0 : Reg) ≤ 0 := by decide
theorem witness_StoreThenLoadRestoresRegisters : State.reset.canonical = true ∧ (withI 0xFF0#16).base + 15 ≤ 0xFFF ∧
    ∃ t, exec (.storeRegs 15) (withI 0xFF0#16) = .next t := ⟨rfl, by decide, _, rfl⟩
theorem witness_OnlyBcdAndStoreWriteMemory : ∃ t, exec (.ldB 4) (withI 0xFFD#16) = .next t := ⟨_, rfl⟩
theorem witness_FetchSeesStoredBytes : State.reset.canonical = true ∧ (withI 0x208#16).base + (1 : Reg).val ≤ 0xFFF ∧
    (0 : Reg) ≤ 1 ∧ (1 : Reg).val = (0 : Reg).val + 1 ∧
    ∃ t, exec (.storeRegs 1) (withI 0x208#16) = .next t := ⟨rfl, by decide, by decide, rfl, _, rfl⟩
theorem witness_WritersOfFramebufferStackAndIndex : ∃ t, exec (.addI 1) (withI 0xFFF0#16) = .next t := ⟨_, rfl⟩
/-- Anchor (63, 31), 15 rows, both edges crossed. -/
theorem witness_DrawingLoopXorsTheMask : (63 : Nat) < 64 ∧ (31 : Nat) < 32 ∧ (List.replicate 15 0xFF#8).length ≤ 15 ∧
    Covers .wrap 63 31 15 (fun r => (List.replicate 15 0xFF#8).getD r 0#8) 6 13 ∧
    ¬ Covers .clip 63 31 15 (fun r => (List.replicate 15 0xFF#8).getD r 0#8) 6 13 := by
  refine ⟨by decide, by decide, by decide, ⟨14, by decide, 7, by decide, by decide, by decide, by decide⟩, ?_⟩
  rintro ⟨_, _, c, _, _, _, h⟩
  have h : 6 = 63 + c := h
  omega
/-- Past memory (DP9); in range up to 0xFFF (DP10); no row at all (DP11). -/
theorem witness_DrawSprite : ((2#4).toNat > 0 ∧ (withI 0xFFF#16).i.toNat + (2#4).toNat - 1 > 0xFFF) ∧
    (withI 0xFFF#16).i.toNat + (1#4).toNat - 1 ≤ 0xFFF ∧ (0#4).toNat = 0 := by decide
/-- Glyph 0 drawn at (0, 0): on a pixel that is on, and on one that is off. -/
theorem witness_DrawSprite_hit : drawMask 0 1 5#4 { State.reset with fb := pixels [(0, 0)] } 0 0 ∧
    (pixels [(0, 0)]).pixel 0 0 = true ∧ Framebuffer.off.pixel 0 0 = false :=
  ⟨⟨0, by decide, 0, by decide, by decide, by decide, by decide⟩, by decide, by decide⟩
theorem witness_DrawingTwiceRestores : (withI 0x000#16).i.toNat + (5#4).toNat - 1 ≤ 0xFFF ∧
    ∃ t, exec (.drw 0 1 5#4) (withI 0x000#16) = .next t ∧ t.i = 0x000#16 ∧ t.reg 0 = 0#8 ∧ t.reg 1 = 0#8 ∧
      ∀ a, t.byte a = State.reset.byte a := ⟨by decide, _, rfl, rfl, rfl, rfl, fun _ => rfl⟩
theorem witness_KeySkips : ((regs [(5, 0x10#8)]).reg 5).toNat > 0xF ∧ ((regs [(5, 0x0F#8)]).reg 5).toNat ≤ 0xF := by
  decide
/-- No key, the first key, the last key alone. -/
theorem witness_KeyWait : (∀ k < 16, State.reset.key.getLsbD k = false) ∧
    (0x0001#16).getLsbD 0 = true ∧
    (0x8000#16).getLsbD 15 = true ∧ ∀ j < 15, (0x8000#16).getLsbD j = false := by decide

end Sys2Proof.Tests
end

section
/-! Decoding (30_encoding.md R62): what a decoded word encodes to, which words decode to nothing, and which rows of the
opcode map (R61) a word hits. -/

namespace Sys2Proof

open Machine

/-! ### A word rebuilt from its fixed fields and its operand fields -/

theorem word_of_addr {w : Word} {a : Nibble} (ha : (opField w).toNat = a.toNat) : (a ++ nnnField w : Word) = w := by
  rw [← BitVec.eq_of_toNat_eq ha]
  exact word_addr w

theorem word_of_byte {w : Word} {a : Nibble} {k : Byte} (ha : (opField w).toNat = a.toNat) (hk : nnField w = k) :
    (a ++ Reg.bits (xField w) ++ k : Word) = w := by
  rw [← BitVec.eq_of_toNat_eq ha, ← hk]
  exact word_byte w

theorem word_of_nibbles {w : Word} {a d : Nibble} (ha : (opField w).toNat = a.toNat)
    (hd : (nField w).toNat = d.toNat) : (a ++ Reg.bits (xField w) ++ Reg.bits (yField w) ++ d : Word) = w := by
  rw [← BitVec.eq_of_toNat_eq ha, ← BitVec.eq_of_toNat_eq hd]
  exact word_nibbles w

/-! ### Under `strict`, a decoded instruction encodes to its word -/

theorem encode_of_decodeGroup0 {w : Word} {i : Instr} (h : decodeGroup0 w = some i) : encode i = w := by
  unfold decodeGroup0 at h
  split_ifs at h with hw hw <;> cases h <;> exact hw.symm

theorem encode_of_decodeLowNibble_strict {w : Word} {i j : Instr} (hi : (nField w).toNat = 0 → encode i = w)
    (h : decodeLowNibble .strict w i = some j) : encode j = w := by
  unfold decodeLowNibble at h
  split_ifs at h with hn
  cases h
  exact hi (congrArg BitVec.toNat hn)

theorem encode_of_decodeGroup8 {w : Word} {i : Instr} (hop : (opField w).toNat = 0x8)
    (h : decodeGroup8 w = some i) : encode i = w := by
  unfold decodeGroup8 at h
  split at h <;> cases h <;> exact word_of_nibbles hop ‹_›

theorem encode_of_decodeGroupE {w : Word} {i : Instr} (hop : (opField w).toNat = 0xE)
    (h : decodeGroupE w = some i) : encode i = w := by
  unfold decodeGroupE at h
  split_ifs at h with hk hk <;> cases h <;> exact word_of_byte hop hk

theorem encode_of_decodeGroupF {w : Word} {i : Instr} (hop : (opField w).toNat = 0xF)
    (h : decodeGroupF w = some i) : encode i = w := by
  unfold decodeGroupF at h
  split_ifs at h with hk hk hk hk hk hk hk hk hk <;> cases h <;> exact word_of_byte hop hk

/-- No bit of a word the `strict` decoder accepts is dropped. -/
theorem encode_of_decodeWith_strict {w : Word} {i : Instr} (h : decodeWith .strict w = some i) : encode i = w := by
  unfold decodeWith at h
  split at h
  case h_1 => exact encode_of_decodeGroup0 h
  case h_6 hop => exact encode_of_decodeLowNibble_strict (fun hn => word_of_nibbles hop hn) h
  case h_9 hop => exact encode_of_decodeGroup8 hop h
  case h_10 hop => exact encode_of_decodeLowNibble_strict (fun hn => word_of_nibbles hop hn) h
  case h_14 hop => cases h; exact word_of_nibbles hop rfl
  case h_15 hop => exact encode_of_decodeGroupE hop h
  case h_16 => exact encode_of_decodeGroupF (by simp only [imp_false] at *; omega) h
  case h_2 hop | h_3 hop | h_11 hop | h_12 hop => cases h; exact word_of_addr hop
  case h_4 hop | h_5 hop | h_7 hop | h_8 hop | h_13 hop => cases h; exact word_of_byte hop rfl

/-! ### Under `ignore`, only the groups 5 and 9 decode differently (R64) -/

theorem decodeWith_ignore_of_op5 {w : Word} (hop : opField w = 0x5#4) :
    decodeWith .ignore w = some (.seReg (xField w) (yField w)) := by
  simp [decodeWith, decodeLowNibble, hop]

theorem decodeWith_ignore_of_op9 {w : Word} (hop : opField w = 0x9#4) :
    decodeWith .ignore w = some (.sneReg (xField w) (yField w)) := by
  simp [decodeWith, decodeLowNibble, hop]

theorem decodeWith_ignore_eq_strict {w : Word} (h5 : opField w ≠ 0x5#4) (h9 : opField w ≠ 0x9#4) :
    decodeWith .ignore w = decodeWith .strict w := by
  unfold decodeWith
  split
  case h_6 hop => exact absurd (BitVec.eq_of_toNat_eq hop) h5
  case h_10 hop => exact absurd (BitVec.eq_of_toNat_eq hop) h9
  all_goals rfl

/-! ### The words that decode to nothing (R63)

A group that rejects a word looks at the bits that select its row, and at no operand bit. -/

theorem decodeLowNibble_eq_none {p : DecodePolicy} {w : Word} {i : Instr} (h : decodeLowNibble p w i = none) :
    p = .strict ∧ nField w ≠ 0#4 := by
  cases p
  case strict => simpa [decodeLowNibble] using h
  case ignore => simp [decodeLowNibble] at h

theorem decodeGroup8_eq_none_congr {w u : Word} (h : nField w = nField u) :
    decodeGroup8 w = none ↔ decodeGroup8 u = none := by
  unfold decodeGroup8
  rw [h]
  split <;> simp

theorem decodeGroupE_eq_none_congr {w u : Word} (h : nnField w = nnField u) :
    decodeGroupE w = none ↔ decodeGroupE u = none := by
  simp [decodeGroupE, ite_eq_iff, h]

theorem decodeGroupF_eq_none_congr {w u : Word} (h : nnField w = nnField u) :
    decodeGroupF w = none ↔ decodeGroupF u = none := by
  simp [decodeGroupF, ite_eq_iff, h]

/-- Only the groups with unassigned words (R63, R64) can decode a word to nothing. -/
theorem decodeWith_eq_none {p : DecodePolicy} {w : Word} (h : decodeWith p w = none) :
    opField w = 0x0#4 ∧ decodeGroup0 w = none ∨
    opField w = 0x8#4 ∧ decodeGroup8 w = none ∨
    opField w = 0xE#4 ∧ decodeGroupE w = none ∨
    opField w = 0xF#4 ∧ decodeGroupF w = none ∨
    (opField w = 0x5#4 ∨ opField w = 0x9#4) ∧ p = .strict ∧ nField w ≠ 0#4 := by
  simp only [← BitVec.toNat_inj (y := BitVec.ofNat 4 _), BitVec.toNat_ofNat, Nat.reducePow, Nat.reduceMod]
  unfold decodeWith at h
  split at h
  case h_1 hop => exact .inl ⟨hop, h⟩
  case h_9 hop => exact .inr (.inl ⟨hop, h⟩)
  case h_15 hop => exact .inr (.inr (.inl ⟨hop, h⟩))
  case h_16 => exact .inr (.inr (.inr (.inl ⟨by simp only [imp_false] at *; omega, h⟩)))
  case h_6 hop => exact .inr (.inr (.inr (.inr ⟨.inl hop, decodeLowNibble_eq_none h⟩)))
  case h_10 hop => exact .inr (.inr (.inr (.inr ⟨.inr hop, decodeLowNibble_eq_none h⟩)))
  all_goals cases h

/-! ### The opcode map as a table (R61): what its masks fix, and how its patterns decode -/

theorem opcodeMap_fixes_opField (p : DecodePolicy) : ∀ r ∈ opcodeMap p, opField r.mask = 0xF#4 := by
  cases p <;> decide

theorem opcodeMap_group0 (p : DecodePolicy) : ∀ r ∈ opcodeMap p, opField r.pattern = 0x0#4 →
    r.mask = 0xFFFF#16 ∧ decodeGroup0 r.pattern ≠ none := by
  cases p <;> decide

theorem opcodeMap_group8 (p : DecodePolicy) : ∀ r ∈ opcodeMap p, opField r.pattern = 0x8#4 →
    nField r.mask = 0xF#4 ∧ decodeGroup8 r.pattern ≠ none := by
  cases p <;> decide

theorem opcodeMap_groupE (p : DecodePolicy) : ∀ r ∈ opcodeMap p, opField r.pattern = 0xE#4 →
    nnField r.mask = 0xFF#8 ∧ decodeGroupE r.pattern ≠ none := by
  cases p <;> decide

theorem opcodeMap_groupF (p : DecodePolicy) : ∀ r ∈ opcodeMap p, opField r.pattern = 0xF#4 →
    nnField r.mask = 0xFF#8 ∧ decodeGroupF r.pattern ≠ none := by
  cases p <;> decide

theorem opcodeMap_strict_groups5And9 : ∀ r ∈ opcodeMap .strict,
    opField r.pattern = 0x5#4 ∨ opField r.pattern = 0x9#4 → nField r.mask = 0xF#4 ∧ nField r.pattern = 0#4 := by
  decide

theorem mem_opcodeMap_ignore_of_strict : ∀ r ∈ opcodeMap .strict, opField r.pattern ≠ 0x5#4 →
    opField r.pattern ≠ 0x9#4 → r ∈ opcodeMap .ignore := by
  decide

/-! ### A hit fixes the fields the row's mask fixes -/

theorem Row.hits_iff {r : Row} {w : Word} : r.hits w = true ↔ w &&& r.mask = r.pattern := by
  simp [Row.hits]

theorem opField_and (w m : Word) : opField (w &&& m) = opField w &&& opField m := BitVec.extractLsb'_and

theorem nField_and (w m : Word) : nField (w &&& m) = nField w &&& nField m := BitVec.extractLsb'_and

theorem nnField_and (w m : Word) : nnField (w &&& m) = nnField w &&& nnField m := BitVec.extractLsb'_and

theorem opField_of_hits {p : DecodePolicy} {r : Row} {w : Word} (hr : r ∈ opcodeMap p) (h : r.hits w = true) :
    opField w = opField r.pattern := by
  rw [← Row.hits_iff.1 h, opField_and, opcodeMap_fixes_opField p r hr, nibble_and_ones]

theorem nField_of_hits {r : Row} {w : Word} (h : r.hits w = true) (hm : nField r.mask = 0xF#4) :
    nField w = nField r.pattern := by
  rw [← Row.hits_iff.1 h, nField_and, hm, nibble_and_ones]

theorem nnField_of_hits {r : Row} {w : Word} (h : r.hits w = true) (hm : nnField r.mask = 0xFF#8) :
    nnField w = nnField r.pattern := by
  rw [← Row.hits_iff.1 h, nnField_and, hm]
  exact BitVec.and_allOnes.symm

theorem eq_pattern_of_hits {r : Row} {w : Word} (h : r.hits w = true) (hm : r.mask = 0xFFFF#16) : w = r.pattern := by
  rw [← Row.hits_iff.1 h, hm]
  exact BitVec.and_allOnes.symm

theorem decodeWith_ne_none_of_hits {p : DecodePolicy} {r : Row} {w : Word} (hr : r ∈ opcodeMap p)
    (h : r.hits w = true) : decodeWith p w ≠ none := by
  intro hnone
  have hop := opField_of_hits hr h
  obtain ⟨hw, hg⟩ | ⟨hw, hg⟩ | ⟨hw, hg⟩ | ⟨hw, hg⟩ | ⟨hw, rfl, hn⟩ := decodeWith_eq_none hnone <;> rw [hop] at hw
  · obtain ⟨hm, hp⟩ := opcodeMap_group0 p r hr hw
    exact hp (eq_pattern_of_hits h hm ▸ hg)
  · obtain ⟨hm, hp⟩ := opcodeMap_group8 p r hr hw
    exact hp ((decodeGroup8_eq_none_congr (nField_of_hits h hm)).1 hg)
  · obtain ⟨hm, hp⟩ := opcodeMap_groupE p r hr hw
    exact hp ((decodeGroupE_eq_none_congr (nnField_of_hits h hm)).1 hg)
  · obtain ⟨hm, hp⟩ := opcodeMap_groupF p r hr hw
    exact hp ((decodeGroupF_eq_none_congr (nnField_of_hits h hm)).1 hg)
  · obtain ⟨hm, hp⟩ := opcodeMap_strict_groups5And9 r hr hw
    exact hn ((nField_of_hits h hm).trans hp)

/-! ### The row of a decoded word -/

/-- The row the word matches bears the instruction's mnemonic, and the operands are the word's fields (R58, R62). -/
def SelectsRow (p : DecodePolicy) (w : Word) (i : Instr) : Prop :=
  (∃ r ∈ opcodeMap p, r.mnemonic = i.mnemonic ∧ r.hits w = true) ∧ i.fields = wordFields i.format w.toNat

open Laws in
theorem exists_row_hits_encode : ∀ i : Instr, RowMatch.Statement i
  | .cls => RowMatch.cls
  | .ret => RowMatch.ret
  | .jp a => RowMatch.jp a
  | .call a => RowMatch.call a
  | .seImm x k => RowMatch.seImm x k
  | .sneImm x k => RowMatch.sneImm x k
  | .seReg x y => RowMatch.seReg x y
  | .ldImm x k => RowMatch.ldImm x k
  | .addImm x k => RowMatch.addImm x k
  | .ldReg x y => RowMatch.ldReg x y
  | .orReg x y => RowMatch.orReg x y
  | .andReg x y => RowMatch.andReg x y
  | .xorReg x y => RowMatch.xorReg x y
  | .addReg x y => RowMatch.addReg x y
  | .subReg x y => RowMatch.subReg x y
  | .shr x y => RowMatch.shr x y
  | .subn x y => RowMatch.subn x y
  | .shl x y => RowMatch.shl x y
  | .sneReg x y => RowMatch.sneReg x y
  | .ldI a => RowMatch.ldI a
  | .jpV0 a => RowMatch.jpV0 a
  | .rnd x k => RowMatch.rnd x k
  | .drw x y n => RowMatch.drw x y n
  | .skp x => RowMatch.skp x
  | .sknp x => RowMatch.sknp x
  | .ldVxDt x => RowMatch.ldVxDt x
  | .ldVxK x => RowMatch.ldVxK x
  | .ldDtVx x => RowMatch.ldDtVx x
  | .ldStVx x => RowMatch.ldStVx x
  | .addI x => RowMatch.addI x
  | .ldF x => RowMatch.ldF x
  | .ldB x => RowMatch.ldB x
  | .storeRegs x => RowMatch.storeRegs x
  | .loadRegs x => RowMatch.loadRegs x

theorem selectsRow_strict {w : Word} {i : Instr} (h : decodeWith .strict w = some i) : SelectsRow .strict w i := by
  rw [← encode_of_decodeWith_strict h]
  exact ⟨exists_row_hits_encode i, encode_fields i⟩

/-- The mask of 5XY0 and 9XY0 under `ignore` keeps the leading nibble and nothing else. -/
theorem and_mask59_ignore {w : Word} {a : Nibble} (ha : opField w = a) :
    w &&& mask59 .ignore = a ++ 0#4 ++ 0#4 ++ 0#4 := by
  rw [← word_of_nibbles (congrArg BitVec.toNat ha) rfl]
  exact mask_draw ..

theorem regReg_fields (w : Word) : Instr.fields (.seReg (xField w) (yField w)) = wordFields .regReg w.toNat := by
  simp only [Instr.fields, wordFields, xField_val, yField_val]

theorem selectsRow_ignore {w : Word} {i : Instr} (h : decodeWith .ignore w = some i) : SelectsRow .ignore w i := by
  by_cases h5 : opField w = 0x5#4
  · cases (decodeWith_ignore_of_op5 h5).symm.trans h
    exact ⟨⟨⟨"5XY0", 0x5000#16, mask59 .ignore⟩, by decide, rfl, Row.hits_iff.2 (and_mask59_ignore h5)⟩,
      regReg_fields w⟩
  by_cases h9 : opField w = 0x9#4
  · cases (decodeWith_ignore_of_op9 h9).symm.trans h
    exact ⟨⟨⟨"9XY0", 0x9000#16, mask59 .ignore⟩, by decide, rfl, Row.hits_iff.2 (and_mask59_ignore h9)⟩,
      regReg_fields w⟩
  obtain ⟨⟨r, hr, hm, hw⟩, hf⟩ := selectsRow_strict (decodeWith_ignore_eq_strict h5 h9 ▸ h)
  have hop := opField_of_hits hr hw
  exact ⟨⟨r, mem_opcodeMap_ignore_of_strict r hr (hop ▸ h5) (hop ▸ h9), hm, hw⟩, hf⟩

theorem selectsRow_of_decodeWith {p : DecodePolicy} {w : Word} {i : Instr} (h : decodeWith p w = some i) :
    SelectsRow p w i := by
  cases p
  case strict => exact selectsRow_strict h
  case ignore => exact selectsRow_ignore h

theorem decodeWith_eq_none_iff (p : DecodePolicy) (w : Word) :
    decodeWith p w = none ↔ ∀ r ∈ opcodeMap p, r.hits w = false := by
  constructor
  · intro h r hr
    exact Bool.eq_false_iff.2 fun hw => decodeWith_ne_none_of_hits hr hw h
  · intro h
    refine Option.eq_none_iff_forall_not_mem.2 fun i hi => ?_
    obtain ⟨⟨r, hr, _, hw⟩, _⟩ := selectsRow_of_decodeWith hi
    exact Bool.false_ne_true ((h r hr).symm.trans hw)

/-- Settles O3: a decoded word is the word of its instruction up to the bits `ignore` leaves out, so it hits the
instruction's row; a word that decodes to nothing differs from every row in the bits that select the row. -/
theorem decoderSelectsTheMatchingRow : Obligations.DecoderSelectsTheMatchingRow :=
  fun p w => ⟨fun _ h => selectsRow_of_decodeWith h, decodeWith_eq_none_iff p w⟩

end Sys2Proof
end

section
/-! The execution cycle (40_execution_cycle.md): the word of no row (R80), and what no execution step writes (R82). -/

namespace Sys2Proof.Machine

/-! ### A word of no row (R80) -/

theorem decode_eq_none_iff (w : Word) : decode w = none ↔ ∀ r ∈ opcodeMap decodePolicy, r.hits w = false :=
  decodeWith_eq_none_iff decodePolicy w

theorem step_of_fetches {s : State} {w : Word} (h : s.Fetches w) : step s = runWord w s := by
  obtain ⟨hrun, hidle, hpc, rfl⟩ := h
  rw [step_idle hidle, executionStep_run hrun hpc]

/-- Settles O8: a word of no row decodes to nothing, so the step that fetches it runs the no-op. -/
theorem unassignedWordOnlyAdvances : Obligations.UnassignedWordOnlyAdvances := by
  intro s w hfetch hrows
  rw [step_of_fetches hfetch, runWord_none ((decode_eq_none_iff w).2 hrows)]
  rfl

/-! ### KEY, ROM and the timers (R82) -/

/-- What R82 says of a step from `s` to `t` whose fetched word decodes to `d`. -/
structure KeepsKeysRomAndTimers (d : Option Instr) (s t : State) : Prop where
  key : t.key = s.key
  rom : t.rom = s.rom
  dt : t.dt = s.dt ∨ ∃ x, d = some (.ldDtVx x)
  st : t.st = s.st ∨ ∃ x, d = some (.ldStVx x)

namespace KeepsKeysRomAndTimers

variable {d : Option Instr} {s t u : State}

theorem of_same (hkey : t.key = s.key) (hrom : t.rom = s.rom) (hdt : t.dt = s.dt) (hst : t.st = s.st) :
    KeepsKeysRomAndTimers d s t := ⟨hkey, hrom, .inl hdt, .inl hst⟩

theorem takeFault {c : FaultCause} {w : Word} {k : Bool} {n : Info} :
    KeepsKeysRomAndTimers d s (s.takeFault c w k n) := of_same rfl rfl rfl rfl

theorem skipIf {c : Bool} : KeepsKeysRomAndTimers d s (s.advance.skipIf c) := by
  apply of_same <;> simp

theorem setRegsFrom {r : Nat} {bs : List Byte} : KeepsKeysRomAndTimers d s (s.advance.setRegsFrom r bs) := by
  rw [State.setRegsFrom_eq]
  exact of_same rfl rfl rfl rfl

/-- An outcome that is a fault under a check `p` and the state `u` otherwise. -/
theorem of_checked {p : Bool} {o : Result} {c : FaultCause} {w : Word} {k : Bool} {n : Info}
    (hfault : p = true → o = .next (s.takeFault c w k n)) (hnext : p = false → o = .next u)
    (hu : KeepsKeysRomAndTimers d s u) (h : o = .next t) : KeepsKeysRomAndTimers d s t := by
  cases p with
  | true => cases (hfault rfl).symm.trans h; exact takeFault
  | false => cases (hnext rfl).symm.trans h; exact hu

end KeepsKeysRomAndTimers

open KeepsKeysRomAndTimers in
/-- Whether it completes or faults, an instruction keeps KEY and ROM, and each timer but for the one that writes it. -/
theorem exec_keepsKeysRomAndTimers {i : Instr} {s t : State} (h : exec i s = .next t) :
    KeepsKeysRomAndTimers (some i) s t := by
  cases i with
  | ldDtVx x => cases h; exact ⟨rfl, rfl, .inr ⟨x, rfl⟩, .inl rfl⟩
  | ldStVx x => cases h; exact ⟨rfl, rfl, .inl rfl, .inr ⟨x, rfl⟩⟩
  | drw => exact of_checked execDrw_past execDrw_next (of_same rfl rfl rfl rfl) h
  | ldB => exact of_checked execLdB_past execLdB_next (of_same rfl rfl rfl rfl) h
  | storeRegs => exact of_checked execStoreRegs_past execStoreRegs_next (of_same rfl rfl rfl rfl) h
  | loadRegs => exact of_checked execLoadRegs_past execLoadRegs_next setRegsFrom h
  | ret =>
    obtain hs | ⟨st, ra, hs⟩ := List.eq_nil_or_concat' s.stack
    · cases (execRet_empty hs).symm.trans h; exact takeFault
    · cases (execRet_next hs).symm.trans h; exact of_same rfl rfl rfl rfl
  | call =>
    simp only [exec, execCall] at h
    split_ifs at h <;> cases h
    · exact takeFault
    · exact of_same rfl rfl rfl rfl
  | skp | sknp =>
    simp only [exec, execSkp, execSknp] at h
    split_ifs at h <;> cases h
    · exact takeFault
    · exact skipIf
  | seImm | sneImm | seReg | sneReg => cases h; exact skipIf
  | ldVxK =>
    simp only [exec, execLdVxK] at h
    split at h <;> cases h <;> exact of_same rfl rfl rfl rfl
  | _ => cases h; exact of_same rfl rfl rfl rfl

theorem runWord_keepsKeysRomAndTimers {w : Word} {s t : State} (h : runWord w s = .next t) :
    KeepsKeysRomAndTimers (decode w) s t := by
  cases hd : decode w with
  | none => cases (runWord_none hd s).symm.trans h; exact .of_same rfl rfl rfl rfl
  | some i => exact exec_keepsKeysRomAndTimers ((runWord_instr hd s).symm.trans h)

theorem executionStep_keepsKeysRomAndTimers {s t : State} (h : executionStep s = .next t) :
    KeepsKeysRomAndTimers (decode s.wordAtPc) s t := by
  by_cases hrun : s.fault.cause = .none
  · obtain hpc | hpc := Nat.lt_or_ge 0xFFE s.pc.toNat
    · cases (executionStep_past hrun hpc).symm.trans h; exact .takeFault
    · exact runWord_keepsKeysRomAndTimers ((executionStep_run hrun hpc).symm.trans h)
  · cases (executionStep_halted hrun).symm.trans h; exact .of_same rfl rfl rfl rfl

/-- Settles O24: a halted core keeps its state, a fetch fault writes FAULT only, and the fetched word runs the no-op
or an instruction, of which only FX15 and FX18 write a timer. -/
theorem stepKeepsKeysRomAndTimers : Obligations.StepKeepsKeysRomAndTimers := by
  intro s t h
  obtain ⟨hkey, hrom, hdt, hst⟩ := executionStep_keepsKeysRomAndTimers (s := s) (t := t) h
  exact ⟨hkey, hrom, hdt, hst⟩

end Sys2Proof.Machine
end

section
/-! Control flow (41_control_flow.md): the frame of a write to PC, what a skip answers (R14), and with them the jump
and the skips on registers. -/

namespace Sys2Proof.Machine

theorem encodedAs_of_mask {i : Instr} {pattern mask : Word} (h : encode i &&& mask = pattern) :
    EncodedAs i pattern mask := ⟨h, encode_fields i⟩

@[simp] theorem zextAddr_toNat (a : Addr12) : (zextAddr a).toNat = a.toNat := BitVec.toNat_setWidth_of_le (by decide)

/-! ### Writing PC -/

theorem onlyPc_of_write (s : State) (pc : Word) (c : Bool) : OnlyPc s { s with pc := pc, changed := c } :=
  ⟨fun _ _ => rfl, fun _ => rfl, ⟨rfl, rfl, rfl, rfl⟩, ⟨rfl, rfl, rfl, rfl, rfl⟩, rfl, rfl⟩

/-- The two advances of a taken skip add up to 4. -/
theorem State.skipIf_advance (s : State) (c : Bool) :
    s.advance.skipIf c = { s with pc := if c then s.pc + 4#16 else s.pc + 2#16, changed := false } := by
  cases c with
  | false => rfl
  | true => exact congrArg (fun pc => { s with pc := pc, changed := false }) (BitVec.add_assoc s.pc 2#16 2#16)

theorem skips_when (s : State) {c : Bool} {p : Prop} [Decidable p] (hc : c = true ↔ p) :
    ∃ t, (.next (s.advance.skipIf c) : Result) = .next t ∧ t.pc = (if p then s.pc + 4#16 else s.pc + 2#16) ∧
      t.changed = false ∧ OnlyPc s t := by
  rw [State.skipIf_advance]
  exact ⟨_, rfl, by simp only [hc], rfl, onlyPc_of_write ..⟩

theorem skips_unless (s : State) {c : Bool} {p : Prop} [Decidable p] (hc : c = true ↔ ¬p) :
    ∃ t, (.next (s.advance.skipIf c) : Result) = .next t ∧ t.pc = (if p then s.pc + 2#16 else s.pc + 4#16) ∧
      t.changed = false ∧ OnlyPc s t := by
  simpa only [ite_not] using skips_when s hc

/-! ### 1NNN, 3XNN, 4XNN, 5XY0, 9XY0 -/

/-- Settles O28: the jump overwrites the advanced PC with NNN, which 16 bits hold exactly. -/
theorem jumpSetsPc : Obligations.JumpSetsPc :=
  fun nnn _ => ⟨encodedAs_of_mask (mask_addr ..), _, rfl, zextAddr_toNat nnn, rfl, onlyPc_of_write ..⟩

/-- Settles O30: 3XNN skips when VX = NN, 4XNN unless VX = NN. -/
theorem skipsOnImmediate : Obligations.SkipsOnImmediate :=
  fun _ _ s => ⟨encodedAs_of_mask (mask_imm ..), encodedAs_of_mask (mask_imm ..),
    skips_when s beq_iff_eq, skips_unless s bne_iff_ne⟩

/-- Settles O31: 5XY0 skips when VX = VY, 9XY0 unless VX = VY. -/
theorem skipsOnRegisters : Obligations.SkipsOnRegisters :=
  fun _ _ s => ⟨encodedAs_of_mask (mask_nibbles ..), encodedAs_of_mask (mask_nibbles ..), rfl, rfl,
    skips_when s beq_iff_eq, skips_unless s bne_iff_ne⟩

end Sys2Proof.Machine
end

section
/-! Registers and ALU (42_alu.md): what an instruction whose one result goes to VX leaves unchanged, and with it the
loads, the addition of an immediate, the copy and the bitwise operations. -/

namespace Sys2Proof.Machine

/-! ### Writing VX -/

theorem State.reg_setReg_self (s : State) (x : Reg) (b : Byte) : (s.setReg x b).reg x = b := by
  rw [State.reg_setReg, if_pos rfl]

theorem State.reg_setReg_of_ne (s : State) {x r : Reg} (b : Byte) (h : r ≠ x) : (s.setReg x b).reg r = s.reg r := by
  rw [State.reg_setReg, if_neg h]

/-- Only a register in `w` can differ once the register file, PC and `changed` alone were written. -/
theorem onlyRegs_of_write {w : Reg → Prop} {s : State} {v : Vector Byte 16} {pc : Word} {c : Bool}
    (h : SameRegsBut w s { s with v := v, pc := pc, changed := c }) :
    OnlyRegs w s { s with v := v, pc := pc, changed := c } :=
  ⟨h, fun _ => rfl, ⟨rfl, rfl, rfl, rfl⟩, ⟨rfl, rfl, rfl, rfl, rfl⟩, rfl, rfl⟩

/-- The advance followed by a write of VX changes no other register (R20). -/
theorem advance_setReg_frame (s : State) (x : Reg) (b : Byte) :
    OnlyRegs (· = x) s (s.advance.setReg x b) ∧ Advanced s (s.advance.setReg x b) :=
  ⟨onlyRegs_of_write fun _ hr => s.advance.reg_setReg_of_ne b hr, rfl, rfl⟩

/-! ### 6XNN, 7XNN, 8XY0 to 8XY3 -/

/-- Settles O34: VX takes NN, or the 8-bit sum of VX and NN, which is the sum modulo 256. -/
theorem loadAndAddImmediate : Obligations.LoadAndAddImmediate := by
  intro x nn s
  refine ⟨encodedAs_of_mask (mask_imm ..), encodedAs_of_mask (mask_imm ..),
    ⟨_, rfl, State.reg_setReg_self .., advance_setReg_frame ..⟩, ⟨_, rfl, ?_, advance_setReg_frame ..⟩⟩
  rw [State.reg_setReg_self, BitVec.toNat_add]

/-- Settles O35: VX takes VY, or the value whose every bit is the OR, AND or XOR of that bit of VX and VY. -/
theorem copyAndLogic : Obligations.CopyAndLogic := by
  intro x y s
  refine ⟨encodedAs_of_mask (mask_nibbles ..), encodedAs_of_mask (mask_nibbles ..),
    encodedAs_of_mask (mask_nibbles ..), encodedAs_of_mask (mask_nibbles ..),
    ⟨_, rfl, State.reg_setReg_self .., advance_setReg_frame ..⟩,
    ⟨_, rfl, fun k => ?or, advance_setReg_frame ..⟩,
    ⟨_, rfl, fun k => ?and, advance_setReg_frame ..⟩,
    ⟨_, rfl, fun k => ?xor, advance_setReg_frame ..⟩⟩
  case or => rw [State.reg_setReg_self, BitVec.getLsbD_or]
  case and => rw [State.reg_setReg_self, BitVec.getLsbD_and]
  case xor => rw [State.reg_setReg_self, BitVec.getLsbD_xor]

end Sys2Proof.Machine
end

section
/-! Index and memory (43_index_memory.md): what an instruction whose one result goes to I leaves unchanged, and with it
the load of I. -/

namespace Sys2Proof.Machine

/-! ### Writing I -/

/-- The advance followed by a write of I changes nothing but I and PC (R20). -/
theorem advance_writeI_frame (s : State) (v : Word) :
    OnlyPc { s with i := v } { s.advance with i := v } ∧ Advanced s { s.advance with i := v } :=
  ⟨onlyPc_of_write .., rfl, rfl⟩

/-! ### ANNN -/

/-- Settles O41: I takes NNN, which 16 bits hold exactly. -/
theorem indexLoad : Obligations.IndexLoad :=
  fun nnn s => ⟨encodedAs_of_mask (mask_addr ..), _, rfl, zextAddr_toNat nnn, advance_writeI_frame s _⟩

end Sys2Proof.Machine
end

section
/-! Display (44_display.md): what an instruction that replaces FB and reports a change leaves unchanged, and with it
the clear. -/

namespace Sys2Proof.Machine

/-! ### Writing FB -/

/-- The advance followed by a write of FB changes nothing but FB, PC and `changed` (R20). -/
theorem advance_writeFb_frame (s : State) (fb : Framebuffer) (c : Bool) :
    OnlyPc { s with fb := fb } { s.advance with fb := fb, changed := c } := onlyPc_of_write ..

/-! ### 00E0 -/

/-- Settles O51: FB is overwritten by the all-off framebuffer, whatever it held. -/
theorem clearScreen : Obligations.ClearScreen :=
  ⟨rfl, fun s => ⟨_, rfl, Framebuffer.pixel_off, rfl, rfl, advance_writeFb_frame s ..⟩⟩

end Sys2Proof.Machine
end

section
/-! Keypad and timers (45_keypad_timers.md): what FX0A answers without and with a pressed key (R118), and what an
instruction that writes one timer leaves unchanged. -/

namespace Sys2Proof.Machine

/-! ### FX0A -/

/-- Rewinding PC by 2 undoes the advance, but for `changed` (R77). -/
theorem State.rewind_advance (s : State) : s.advance.jump (s.advance.pc - 2#16) = { s with changed := false } :=
  congrArg (fun pc => { s with pc := pc, changed := false }) (BitVec.add_sub_cancel s.pc 2#16)

theorem execLdVxK_noKey {x : Reg} {s : State} (h : s.lowestKey = none) :
    execLdVxK x s = .next { s with changed := false } := by
  rw [execLdVxK, h, ← State.rewind_advance]

theorem execLdVxK_key {x : Reg} {s : State} {k : Nat} (h : s.lowestKey = some k) :
    execLdVxK x s = .next (s.advance.setReg x (BitVec.ofNat 8 k)) := by
  rw [execLdVxK, h]

/-- Settles O56: with no lowest key the rewind leaves PC at FX0A itself; a lowest key is a number below 16, which VX
holds exactly. -/
theorem keyWait : Obligations.KeyWait := by
  refine fun x s => ⟨encodedAs_of_mask (mask_byte ..), fun hnone => ?noKey, fun k hk hdown hlow => ?key⟩
  case noKey => exact ⟨_, execLdVxK_noKey (State.lowestKey_eq_none.2 hnone), rfl, rfl, onlyPc_of_write s s.pc false⟩
  case key =>
    refine ⟨_, execLdVxK_key (State.lowestKey_eq_some.2 ⟨hk, hdown, hlow⟩), ?_, advance_setReg_frame ..⟩
    rw [State.reg_setReg_self, BitVec.toNat_ofNat]
    omega

/-! ### FX07, FX15, FX18 -/

/-- The advance followed by a write of DT changes nothing but DT and PC (R20). -/
theorem advance_writeDt_frame (s : State) (b : Byte) :
    OnlyPc { s with dt := b } { s.advance with dt := b } ∧ Advanced s { s.advance with dt := b } :=
  ⟨onlyPc_of_write .., rfl, rfl⟩

/-- The advance followed by a write of ST changes nothing but ST and PC (R20). -/
theorem advance_writeSt_frame (s : State) (b : Byte) :
    OnlyPc { s with st := b } { s.advance with st := b } ∧ Advanced s { s.advance with st := b } :=
  ⟨onlyPc_of_write .., rfl, rfl⟩

/-- Settles O57: VX takes DT, DT takes VX, or ST takes VX. -/
theorem timerInstructions : Obligations.TimerInstructions :=
  fun _ s => ⟨encodedAs_of_mask (mask_byte ..), encodedAs_of_mask (mask_byte ..), encodedAs_of_mask (mask_byte ..),
    ⟨_, rfl, State.reg_setReg_self .., advance_setReg_frame ..⟩,
    ⟨_, rfl, rfl, advance_writeDt_frame s _⟩,
    ⟨_, rfl, rfl, advance_writeSt_frame s _⟩⟩

end Sys2Proof.Machine
end

section
/-! What an instruction leaves, field by field: the tables the per-instruction meanings amount to, and that `exec`
answers them where the table of fault causes (R122) gives no fault, and the recorded fault where it gives one. -/

namespace Sys2Proof.Machine

/-! ### The fields a completed instruction writes -/

/-- The drawing of DXYN (R112): anchor VX mod 64, VY mod 32, rows from MEM[I] on. -/
def State.drawn (s : State) (x y : Reg) (n : Nibble) : Canvas :=
  drawSprite spriteEdge (anchorX (s.reg x)) (anchorY (s.reg y)) (s.bytes s.base n.toNat) s.fb

/-- PC after a skip (R14). -/
def State.skipPc (s : State) (c : Bool) : Word := if c then s.pc + 4#16 else s.pc + 2#16

/-- The register file after an instruction that completes. -/
def newRegs (i : Instr) (s : State) : Vector Byte 16 :=
  match i with
  | .ldImm x nn => (s.setReg x nn).v
  | .addImm x nn => (s.setReg x (s.reg x + nn)).v
  | .ldReg x y => (s.setReg x (s.reg y)).v
  | .orReg x y => (s.setReg x (s.reg x ||| s.reg y)).v
  | .andReg x y => (s.setReg x (s.reg x &&& s.reg y)).v
  | .xorReg x y => (s.setReg x (s.reg x ^^^ s.reg y)).v
  | .addReg x y => (s.setResultFlag x (s.reg x + s.reg y) (carryOut (s.reg x) (s.reg y))).v
  | .subReg x y => (s.setResultFlag x (s.reg x - s.reg y) (noBorrow (s.reg x) (s.reg y))).v
  | .shr x y => (s.setResultFlag x (s.reg y >>> 1) (lowBit (s.reg y))).v
  | .subn x y => (s.setResultFlag x (s.reg y - s.reg x) (noBorrow (s.reg y) (s.reg x))).v
  | .shl x y => (s.setResultFlag x (s.reg y <<< 1) (highBit (s.reg y))).v
  | .rnd x nn => (s.setReg x (Config.rnd s.draws &&& nn)).v
  | .drw x y n => (s.setFlag (s.drawn x y n).hit).v
  | .ldVxDt x => (s.setReg x s.dt).v
  | .ldVxK x => (s.lowestKey.elim s fun k => s.setReg x (BitVec.ofNat 8 k)).v
  | .addI x => (s.setFlag (pastAddressable s.i (s.reg x))).v
  | .loadRegs x => (s.advance.setRegsFrom 0 (s.bytes s.base (x.val + 1))).v
  | _ => s.v

/-- I after an instruction that completes. -/
def newI (i : Instr) (s : State) : Word :=
  match i with
  | .ldI nnn => zextAddr nnn
  | .addI x => s.i + zextByte (s.reg x)
  | .ldF x => BitVec.ofNat 16 ((s.reg x).toNat * glyphBytes)
  | _ => s.i

/-- PC after an instruction that completes. -/
def newPc (i : Instr) (s : State) : Word :=
  match i with
  | .ret => s.stack.getLastD 0#16
  | .jp nnn | .call nnn => zextAddr nnn
  | .jpV0 nnn => zextAddr nnn + zextByte (s.reg 0)
  | .seImm x nn => s.skipPc (s.reg x == nn)
  | .sneImm x nn => s.skipPc (s.reg x != nn)
  | .seReg x y => s.skipPc (s.reg x == s.reg y)
  | .sneReg x y => s.skipPc (s.reg x != s.reg y)
  | .skp x => s.skipPc (s.keyDown (s.reg x).toNat)
  | .sknp x => s.skipPc (!s.keyDown (s.reg x).toNat)
  | .ldVxK _ => s.lowestKey.elim s.pc fun _ => s.pc + 2#16
  | _ => s.pc + 2#16

/-- STACK after an instruction that completes. -/
def newStack (i : Instr) (s : State) : List Word :=
  match i with
  | .ret => s.stack.dropLast
  | .call _ => s.stack ++ [s.pc + 2#16]
  | _ => s.stack

/-- DT after an instruction that completes. -/
def newDt (i : Instr) (s : State) : Byte :=
  match i with
  | .ldDtVx x => s.reg x
  | _ => s.dt

/-- ST after an instruction that completes. -/
def newSt (i : Instr) (s : State) : Byte :=
  match i with
  | .ldStVx x => s.reg x
  | _ => s.st

/-- FB after an instruction that completes. -/
def newFb (i : Instr) (s : State) : Framebuffer :=
  match i with
  | .cls => Framebuffer.off
  | .drw x y n => (s.drawn x y n).fb
  | _ => s.fb

/-- MEM after an instruction that completes. -/
def newMem (i : Instr) (s : State) : Memory :=
  match i with
  | .ldB x => s.memWith s.base (bcdDigits (s.reg x))
  | .storeRegs x => s.memWith s.base (s.regsUpTo x)
  | _ => s.mem

/-- `changed` after an instruction that completes (R77). -/
def newChanged (i : Instr) : Bool :=
  match i with
  | .cls | .drw _ _ _ => true
  | _ => false

/-- The count of random bytes drawn after an instruction that completes (R81). -/
def newDraws (i : Instr) (s : State) : Nat :=
  match i with
  | .rnd _ _ => s.draws + 1
  | _ => s.draws

/-- The state an instruction that completes leaves. KEY, ROM, FONT, FAULT and what waits are in no table: no
instruction that completes writes them. -/
def completed (i : Instr) (s : State) : State :=
  { s with v := newRegs i s, i := newI i s, pc := newPc i s, stack := newStack i s, dt := newDt i s, st := newSt i s,
           fb := newFb i s, mem := newMem i s, changed := newChanged i, draws := newDraws i s }

/-- The state a faulting instruction leaves: FAULT holds the table's record, all else is as before (R79). -/
def faulted (i : Instr) (s : State) (c : FaultCause × Nat) : State :=
  { s with fault := faultRecord s (encode i) c }

/-! ### The range checks of the meanings are the conditions of the table -/

theorem pastMemory_eq_decide {base n : Nat} : pastMemory base n = decide (0 < n ∧ base + n - 1 > 0xFFF) := by
  simp only [pastMemory, Bool.decide_and, addrMax]
  rfl

theorem pastMemory_succ (base n : Nat) : pastMemory base (n + 1) = decide (base + n > 0xFFF) := by
  simp [pastMemory_eq_decide]

/-! ### `exec` answers the tables -/

/-- Where the table of fault causes gives a fault, the instruction takes it. -/
theorem exec_of_fault {i : Instr} {s : State} {c : FaultCause × Nat} (h : faultOf i s = some c) :
    exec i s = .next (faulted i s c) := by
  cases i
  case ret =>
    obtain ⟨hs, ⟨⟩⟩ := Option.ite_none_right_eq_some.1 h
    exact execRet_empty hs
  case call =>
    obtain ⟨hs, ⟨⟩⟩ := Option.ite_none_right_eq_some.1 h
    exact if_pos hs
  case drw =>
    obtain ⟨hp, ⟨⟩⟩ := Option.ite_none_right_eq_some.1 h
    exact execDrw_past (pastMemory_eq_decide.trans (decide_eq_true hp))
  case ldB =>
    obtain ⟨hp, ⟨⟩⟩ := Option.ite_none_right_eq_some.1 h
    exact execLdB_past ((pastMemory_succ ..).trans (decide_eq_true hp))
  case storeRegs =>
    obtain ⟨hp, ⟨⟩⟩ := Option.ite_none_right_eq_some.1 h
    exact execStoreRegs_past ((pastMemory_succ ..).trans (decide_eq_true hp))
  case loadRegs =>
    obtain ⟨hp, ⟨⟩⟩ := Option.ite_none_right_eq_some.1 h
    exact execLoadRegs_past ((pastMemory_succ ..).trans (decide_eq_true hp))
  case skp | sknp =>
    obtain ⟨hk, ⟨⟩⟩ := Option.ite_none_right_eq_some.1 h
    rw [faulted, faultRecord, BitVec.ofNat_toNat]
    exact if_pos hk
  all_goals cases h

/-- A row of the table of fault causes that gives no fault: its condition does not hold. -/
theorem not_of_ite_eq_none {α : Type} {p : Prop} [Decidable p] {a : α}
    (h : (if p then some a else none) = none) : ¬p := by
  simpa using h

/-- Where it gives none, the instruction completes. -/
theorem exec_of_no_fault {i : Instr} {s : State} (h : faultOf i s = none) : exec i s = .next (completed i s) := by
  cases i
  case ret =>
    obtain hs | ⟨st, ra, hs⟩ := List.eq_nil_or_concat' s.stack
    · exact absurd hs (not_of_ite_eq_none h)
    · have hpc : newPc .ret s = ra := by rw [newPc, hs, List.getLastD_concat]
      have hst : newStack .ret s = st := by rw [newStack, hs, List.dropLast_concat]
      rw [exec, execRet_next hs, completed, hpc, hst]
      rfl
  case call => exact if_neg (not_of_ite_eq_none h)
  case drw => exact execDrw_next (pastMemory_eq_decide.trans (decide_eq_false (not_of_ite_eq_none h)))
  case ldB => exact execLdB_next ((pastMemory_succ ..).trans (decide_eq_false (not_of_ite_eq_none h)))
  case storeRegs => exact execStoreRegs_next ((pastMemory_succ ..).trans (decide_eq_false (not_of_ite_eq_none h)))
  case loadRegs =>
    refine (execLoadRegs_next ((pastMemory_succ ..).trans (decide_eq_false (not_of_ite_eq_none h)))).trans ?_
    rw [State.setRegsFrom_eq]
    rfl
  case skp | sknp => exact (if_neg (not_of_ite_eq_none h)).trans (congrArg _ (State.skipIf_advance ..))
  case seImm | sneImm | seReg | sneReg => exact congrArg _ (State.skipIf_advance ..)
  case ldVxK x =>
    cases hk : s.lowestKey with
    | none => rw [exec, execLdVxK_noKey hk, completed, newRegs, newPc, hk]; rfl
    | some k => rw [exec, execLdVxK_key hk, completed, newRegs, newPc, hk]; rfl
  all_goals rfl

end Sys2Proof.Machine
end

section
/-! The claims about all instructions (10_state.md sections 1, 3, 4, 6; 60_exceptions.md section 1), read off the
tables of what an instruction leaves. -/

namespace Sys2Proof.Machine

/-! ### Every outcome of an instruction -/

/-- The state an instruction answers: the recorded fault or the completed state, by the table of fault causes. -/
theorem exec_next_cases {i : Instr} {s t : State} (h : exec i s = .next t) :
    (∃ c, faultOf i s = some c ∧ t = faulted i s c) ∨ faultOf i s = none ∧ t = completed i s := by
  cases hf : faultOf i s with
  | some c => cases (exec_of_fault hf).symm.trans h; exact .inl ⟨c, rfl, rfl⟩
  | none => cases (exec_of_no_fault hf).symm.trans h; exact .inr ⟨rfl, rfl⟩

theorem exists_exec_eq_next (i : Instr) (s : State) : ∃ t, exec i s = .next t := by
  cases hf : faultOf i s with
  | some c => exact ⟨_, exec_of_fault hf⟩
  | none => exact ⟨_, exec_of_no_fault hf⟩

/-- Settles O13: `exec` answers the recorded fault where the table gives one, and the completed state, which keeps
FAULT, where it gives none. -/
theorem faultTable : Obligations.FaultTable :=
  ⟨rfl, fun _ _ => ⟨fun _ => exec_of_fault, fun h => ⟨_, exec_of_no_fault h, rfl⟩⟩⟩

/-! ### Registers (R17) -/

theorem State.reg_setResultFlag_of_ne (s : State) {x r : Reg} (b : Byte) (c : Bool) (h : ¬(r = x ∨ r = vf)) :
    (s.setResultFlag x b c).reg r = s.reg r :=
  ((s.setReg x b).reg_setReg_of_ne _ (h ∘ .inr)).trans (s.reg_setReg_of_ne _ (h ∘ .inl))

theorem State.reg_setRegsFrom_of_gt (s : State) {bs : List Byte} {r : Reg} (h : bs.length ≤ r.val) :
    (s.setRegsFrom 0 bs).reg r = s.reg r := by
  rw [State.reg_setRegsFrom, dif_neg (by omega)]

theorem completed_reg_of_not_writesReg {i : Instr} {r : Reg} (s : State) (h : ¬writesReg i r) :
    (completed i s).reg r = s.reg r := by
  cases i with
  | ldImm | addImm | ldReg | orReg | andReg | xorReg | rnd | ldVxDt | drw | addI => exact s.reg_setReg_of_ne _ h
  | addReg | subReg | shr | subn | shl => exact s.reg_setResultFlag_of_ne _ _ h
  | ldVxK x =>
    show ((s.lowestKey.elim s fun k => s.setReg x (BitVec.ofNat 8 k)).reg r) = s.reg r
    cases s.lowestKey with
    | none => rfl
    | some k => exact s.reg_setReg_of_ne _ h
  | loadRegs x =>
    refine s.advance.reg_setRegsFrom_of_gt ?_
    rw [State.length_bytes]
    exact Nat.lt_of_not_le h
  | _ => rfl

/-- No key is down exactly when KEY is 0. -/
theorem State.lowestKey_eq_none_iff_key {s : State} : s.lowestKey = none ↔ s.key = 0#16 := by
  rw [State.lowestKey_eq_none]
  constructor
  · exact fun h => BitVec.eq_of_getLsbD_eq fun k hk => (h k hk).trans BitVec.getLsbD_zero.symm
  · exact fun h k _ => by rw [State.keyDown, h, BitVec.getLsbD_zero]

/-- Settles O40: a fault writes no register, and a completed instruction only those of its row; FX0A that waits has no
lowest key to write. -/
theorem registersWrittenByEachInstruction : Obligations.RegistersWrittenByEachInstruction := by
  refine fun i s t h => ⟨fun r hr => ?written, ?waiting⟩
  case written =>
    obtain ⟨c, _, rfl⟩ | ⟨_, rfl⟩ := exec_next_cases h
    · rfl
    · exact completed_reg_of_not_writesReg s hr
  case waiting =>
    rintro x rfl hkey r -
    cases (execLdVxK_noKey (x := x) (State.lowestKey_eq_none_iff_key.2 hkey)).symm.trans h
    rfl

/-! ### Memory (R47) -/

theorem completed_byte_outside (i : Instr) (s : State) : SameBytesOutside s.base (storesBytes i) s (completed i s) := by
  intro a ha
  cases i with
  | ldB x => exact s.read_memWith_outside (bcdDigits (s.reg x)) ha
  | storeRegs x => exact s.read_memWith_outside (s.regsUpTo x) (by rwa [State.length_regsUpTo])
  | _ => rfl

/-- Settles O48: a fault stores nothing, and a completed instruction only the bytes the table gives it at I. -/
theorem onlyBcdAndStoreWriteMemory : Obligations.OnlyBcdAndStoreWriteMemory := by
  intro i s t h
  obtain ⟨c, _, rfl⟩ | ⟨_, rfl⟩ := exec_next_cases h
  · exact fun _ _ => rfl
  · exact completed_byte_outside i s

/-! ### FB, STACK, I and the random byte -/

theorem newFb_eq_or (i : Instr) (s : State) : newFb i s = s.fb ∨ i = .cls ∨ ∃ x y n, i = .drw x y n := by
  cases i with
  | cls => exact .inr (.inl rfl)
  | drw x y n => exact .inr (.inr ⟨x, y, n, rfl⟩)
  | _ => exact .inl rfl

theorem newStack_eq_or (i : Instr) (s : State) : newStack i s = s.stack ∨ i = .ret ∨ ∃ a, i = .call a := by
  cases i with
  | ret => exact .inr (.inl rfl)
  | call a => exact .inr (.inr ⟨a, rfl⟩)
  | _ => exact .inl rfl

theorem newI_eq_or (i : Instr) (s : State) :
    newI i s = s.i ∨ (∃ a, i = .ldI a) ∨ (∃ x, i = .addI x) ∨ ∃ x, i = .ldF x := by
  cases i with
  | ldI a => exact .inr (.inl ⟨a, rfl⟩)
  | addI x => exact .inr (.inr (.inl ⟨x, rfl⟩))
  | ldF x => exact .inr (.inr (.inr ⟨x, rfl⟩))
  | _ => exact .inl rfl

theorem newDraws_eq_or (i : Instr) (s : State) : newDraws i s = s.draws ∨ ∃ x k, i = .rnd x k := by
  cases i with
  | rnd x k => exact .inr ⟨x, k, rfl⟩
  | _ => exact .inl rfl

/-- Settles O50: a fault writes none of the four, and each one's table names its writers. -/
theorem writersOfFramebufferStackAndIndex : Obligations.WritersOfFramebufferStackAndIndex := by
  intro i s t h
  obtain ⟨c, _, rfl⟩ | ⟨_, rfl⟩ := exec_next_cases h
  · exact ⟨.inl rfl, .inl rfl, .inl rfl, .inl rfl⟩
  · exact ⟨newFb_eq_or i s, newStack_eq_or i s, newI_eq_or i s, newDraws_eq_or i s⟩

/-! ### PC (R21) -/

theorem State.skipPc_toNat {s : State} {c : Bool} {p : Prop} [Decidable p] (hc : c = true ↔ p)
    (hpc : s.pc.toNat ≤ 0xFFE) : (s.skipPc c).toNat = skipTo s.pc.toNat p := by
  simp only [State.skipPc, skipTo, hc]
  split <;> bv_omega

theorem advanced_pc_toNat {s : State} (hpc : s.pc.toNat ≤ 0xFFE) : (s.pc + 2#16).toNat = s.pc.toNat + 2 := by
  bv_omega

@[simp] theorem zextByte_toNat (b : Byte) : (zextByte b).toNat = b.toNat := BitVec.toNat_setWidth_of_le (by decide)

theorem indexedTarget_toNat (a : Addr12) (b : Byte) : (zextAddr a + zextByte b).toNat = a.toNat + b.toNat := by
  rw [BitVec.toNat_add, zextAddr_toNat, zextByte_toNat]
  have := a.isLt
  have := b.isLt
  omega

theorem newPc_toNat {s : State} (i : Instr) (hpc : s.pc.toNat ≤ 0xFFE) : (newPc i s).toNat = pcAfter i s := by
  cases i with
  | ret => rfl
  | jp nnn | call nnn => exact zextAddr_toNat nnn
  | jpV0 nnn => exact indexedTarget_toNat nnn (s.reg 0)
  | seImm | seReg => exact State.skipPc_toNat beq_iff_eq hpc
  | sneImm | sneReg => exact State.skipPc_toNat bne_iff_ne hpc
  | skp => exact State.skipPc_toNat Iff.rfl hpc
  | sknp => exact State.skipPc_toNat (Bool.not_eq_true' _).to_iff hpc
  | ldVxK x =>
    simp only [newPc, pcAfter, ← State.lowestKey_eq_none_iff_key]
    cases s.lowestKey with
    | none => rfl
    | some k => exact advanced_pc_toNat hpc
  | _ => exact advanced_pc_toNat hpc

/-- Settles O14: a completed instruction leaves the PC of its row, a fault leaves PC alone, and a word of no row
advances it by 2. -/
theorem pcAfterEachInstruction : Obligations.PcAfterEachInstruction := by
  refine ⟨fun i s hpc => ?instr, fun s w hw hd => ?unassigned⟩
  case instr =>
    cases hf : faultOf i s with
    | some c => exact ⟨_, exec_of_fault hf, nofun, fun _ => rfl⟩
    | none => exact ⟨_, exec_of_no_fault hf, fun _ => newPc_toNat i hpc, fun h => absurd rfl h⟩
  case unassigned =>
    have ⟨_, _, hpc, _⟩ := hw
    exact ⟨_, (step_of_fetches hw).trans (runWord_none hd s), advanced_pc_toNat hpc⟩

end Sys2Proof.Machine
end

section
/-! The execution unit's step and the transactions (40_execution_cycle.md, 20_memory.md R50): every way a step can end,
and with it totality, precise faults, `changed`, FONT and the invariant. -/

namespace Sys2Proof.Machine

/-! ### Every way the execution unit's step can end (R70 to R80) -/

/-- The states a step of the execution unit can leave from `s`. -/
inductive UnitStep (s : State) : State → Prop
  | halted (hhalt : s.fault.cause ≠ .none) : UnitStep s s
  | fetchFault (hrun : s.fault.cause = .none) (hpc : s.pc.toNat > 0xFFE) :
      UnitStep s (s.takeFault .fetchOutOfRange 0#16 false (fetchInfo s.pc.toNat))
  | noop (hrun : s.fault.cause = .none) (hpc : s.pc.toNat ≤ 0xFFE) (hd : decode s.wordAtPc = none) :
      UnitStep s s.advance
  | fault (hrun : s.fault.cause = .none) (hpc : s.pc.toNat ≤ 0xFFE) {i : Instr} {c : FaultCause × Nat}
      (hd : decode s.wordAtPc = some i) (hf : faultOf i s = some c) : UnitStep s (faulted i s c)
  | complete (hrun : s.fault.cause = .none) (hpc : s.pc.toNat ≤ 0xFFE) {i : Instr}
      (hd : decode s.wordAtPc = some i) (hf : faultOf i s = none) : UnitStep s (completed i s)

theorem executionStep_answers (s : State) : ∃ t, executionStep s = .next t ∧ UnitStep s t := by
  by_cases hrun : s.fault.cause = .none
  · obtain hpc | hpc := Nat.lt_or_ge 0xFFE s.pc.toNat
    · exact ⟨_, executionStep_past hrun hpc, .fetchFault hrun hpc⟩
    · rw [executionStep_run hrun hpc]
      cases hd : decode s.wordAtPc with
      | none => exact ⟨_, runWord_none hd s, .noop hrun hpc hd⟩
      | some i =>
        rw [runWord_instr hd]
        cases hf : faultOf i s with
        | some c => exact ⟨_, exec_of_fault hf, .fault hrun hpc hd hf⟩
        | none => exact ⟨_, exec_of_no_fault hf, .complete hrun hpc hd hf⟩
  · exact ⟨_, executionStep_halted hrun, .halted hrun⟩

theorem unitStep_of_executionStep {s t : State} (h : executionStep s = .next t) : UnitStep s t := by
  obtain ⟨t', ht', hu⟩ := executionStep_answers s
  cases ht'.symm.trans h
  exact hu

theorem unitStep_of_step {s t : State} (hidle : s.agenda = []) (h : step s = .next t) : UnitStep s t :=
  unitStep_of_executionStep ((step_idle hidle).symm.trans h)

/-! ### Transactions (R50) -/

theorem exists_transact_eq_next (t : Transaction) (s : State) : ∃ u, transact t s = .next u := by
  cases t with
  | step =>
    obtain ⟨u, hu, _⟩ := executionStep_answers s
    exact ⟨u, hu⟩
  | _ => exact ⟨_, rfl⟩

/-- A step is a transaction in a state that differs from `s` in what waits only. -/
theorem step_eq_transact (s : State) : ∃ t rest, step s = transact t { s with agenda := rest } := by
  cases h : s.agenda with
  | nil => exact ⟨.step, [], by rw [← h]; exact step_idle h⟩
  | cons t rest => exact ⟨t, rest, by rw [step, takeNext, State.nextTransaction, h]⟩

/-- Settles O11: by the table of fault causes an instruction is recorded as faulting or completes, and no transaction
but the execution unit's could stop. -/
theorem everyStepAnswersANextState : Obligations.EveryStepAnswersANextState := by
  refine ⟨exists_exec_eq_next, fun s => ?_⟩
  obtain ⟨t, rest, h⟩ := step_eq_transact s
  rw [h]
  exact exists_transact_eq_next ..

/-- Settles O23: the transaction taken is the head of the agenda, and the execution unit's when there is none. -/
theorem oneTransactionAtATime : Obligations.OneTransactionAtATime :=
  ⟨fun _ _ _ h => by rw [step, takeNext, State.nextTransaction, h], fun _ => step_idle⟩

/-- Settles O7: the word at PC is the one fetched, and it runs at the state the step starts in. -/
theorem stepRunsTheDecodedInstruction : Obligations.StepRunsTheDecodedInstruction :=
  fun _ _ _ hw hd => (step_of_fetches hw).trans (runWord_instr hd _)

/-- Settles O9: the halted check comes before the fetch, and the result is read off the record. -/
theorem haltedStepChangesNothing : Obligations.HaltedStepChangesNothing :=
  fun _ hidle hhalt => ⟨(step_idle hidle).trans (executionStep_halted hhalt), if_pos (State.halted_eq_true.2 hhalt)⟩

/-- In RUN a step returns Ok(changed) (R78). -/
theorem respond_step_of_run {s : State} (h : s.fault.cause = .none) : respond .step s = .okStep s.changed :=
  if_neg fun hhalt => State.halted_eq_true.1 hhalt h

/-! ### Fetch (R46, R73) -/

theorem wordOfBytes_toNat (hi lo : Byte) : (wordOfBytes hi lo).toNat = hi.toNat * 256 + lo.toNat := by
  rw [wordOfBytes, BitVec.toNat_append, ← Nat.shiftLeft_add_eq_or_of_lt lo.isLt, Nat.shiftLeft_eq]

theorem fetchInfo_eq_max {a : Nat} (h : a > 0xFFE) : fetchInfo a = BitVec.ofNat 17 (max a 0x1000) := by
  rw [fetchInfo, addrMax]
  split_ifs <;> congr 1 <;> omega

/-- Settles O10: up to 0xFFE both bytes are in memory; past it the record names the first address past memory. -/
theorem fetchReadsTwoBytesOrFaults : Obligations.FetchReadsTwoBytesOrFaults := by
  refine fun s => ⟨fun hpc => ?inside, fun hpc hidle hrun => ?past⟩
  case inside =>
    have hlast : s.pc.toNat + 1 ≤ addrMax := Nat.succ_le_succ hpc
    exact ⟨_, State.fetchWord_eq hlast, wordOfBytes_toNat ..⟩
  case past => exact (step_idle hidle).trans (executionStep_past hrun hpc)

/-! ### Faults are precise (R79) -/

/-- The causes of the table are causes. -/
theorem cause_ne_none_of_faultOf {i : Instr} {s : State} {c : FaultCause × Nat} (h : faultOf i s = some c) :
    c.1 ≠ .none ∧ c.1 ≠ .fetchOutOfRange := by
  cases i
  case ret | call | drw | ldB | storeRegs | loadRegs | skp | sknp =>
    obtain ⟨_, ⟨⟩⟩ := Option.ite_none_right_eq_some.1 h
    exact ⟨nofun, nofun⟩
  all_goals cases h

/-- Only 5XYn and 9XYn under `ignore` lose bits of the word, and neither can fault (log 10). -/
theorem encode_of_decode_of_fault {p : DecodePolicy} {w : Word} {i : Instr} {s : State} {c : FaultCause × Nat}
    (hd : decodeWith p w = some i) (hf : faultOf i s = some c) : encode i = w := by
  cases p
  case strict => exact encode_of_decodeWith_strict hd
  case ignore =>
    by_cases h5 : opField w = 0x5#4
    · cases (decodeWith_ignore_of_op5 h5).symm.trans hd; cases hf
    by_cases h9 : opField w = 0x9#4
    · cases (decodeWith_ignore_of_op9 h9).symm.trans hd; cases hf
    exact encode_of_decodeWith_strict (decodeWith_ignore_eq_strict h5 h9 ▸ hd)

/-- Settles O12: of the ways a step can end, only the two faults leave a cause, and each writes FAULT only. -/
theorem faultsArePrecise : Obligations.FaultsArePrecise := by
  intro s t hidle hrun hstep hfault
  cases unitStep_of_step hidle hstep with
  | fetchFault _ hpc =>
    rw [if_pos hpc]
    exact ⟨rfl, rfl, rfl, rfl, rfl, fetchInfo_eq_max hpc⟩
  | fault _ hpc hd hf =>
    rw [if_neg (Nat.not_lt.2 hpc)]
    exact ⟨rfl, rfl, encode_of_decode_of_fault hd hf, rfl, _, _, hd, hf, rfl, rfl⟩
  | halted | noop | complete => exact absurd hrun hfault

/-! ### `changed` (R77) -/

theorem newChanged_eq_true_iff (i : Instr) : newChanged i = true ↔ i = .cls ∨ ∃ x y n, i = .drw x y n := by
  cases i <;> simp [newChanged]

/-- Settles O15: a step that leaves no cause ran the no-op or completed an instruction, which reports its own row of
the table of `changed`. -/
theorem changedOnlyByClearAndDraw : Obligations.ChangedOnlyByClearAndDraw := by
  intro s t hidle hrun hstep hok
  refine ⟨respond_step_of_run hok, ?_⟩
  cases unitStep_of_step hidle hstep with
  | noop _ _ hd => simp [hd]
  | complete _ _ hd _ =>
    simp only [hd, Option.some.injEq]
    exact newChanged_eq_true_iff _
  | halted hhalt => exact absurd hrun hhalt
  | fetchFault => cases hok
  | fault _ _ _ hf => exact absurd hok (cause_ne_none_of_faultOf hf).1

/-! ### FONT -/

theorem transact_font {tr : Transaction} {s t : State} (h : transact tr s = .next t) : t.font = s.font := by
  cases tr with
  | step => cases unitStep_of_executionStep h <;> rfl
  | load image =>
    cases h
    rw [State.load]
    split <;> rfl
  | _ => cases h; rfl

/-- Settles O59: no transaction writes FONT; reset builds the power-on state of the core's own. -/
theorem fontIsNeverChanged : Obligations.FontIsNeverChanged := by
  intro s t h
  obtain ⟨tr, rest, hs⟩ := step_eq_transact s
  exact transact_font (s := { s with agenda := rest }) (hs.symm.trans h)

end Sys2Proof.Machine
end

section
/-! The invariant of the machine: it holds at power-on, and each way a step can end keeps it. -/

namespace Sys2Proof.Machine

/-! ### What a completed instruction keeps (R23, R25, R38) -/

@[simp] theorem length_bcdDigits (b : Byte) : (bcdDigits b).length = 3 := rfl

theorem completed_canonical {i : Instr} {s : State} (hs : s.canonical = true) (hf : faultOf i s = none) :
    (completed i s).canonical = true := by
  cases i with
  | ldB x =>
    have hfit := not_of_ite_eq_none hf
    refine State.wf_memWith (bs := bcdDigits (s.reg x)) hs (.inr ?_)
    simp only [length_bcdDigits, State.base, memSize]
    omega
  | storeRegs x =>
    have hfit := not_of_ite_eq_none hf
    refine State.wf_memWith (bs := s.regsUpTo x) hs (.inr ?_)
    simp only [State.length_regsUpTo, State.base, memSize]
    omega
  | _ => exact hs

theorem newStack_length_le {i : Instr} {s : State} (hs : s.stack.length ≤ 16) (hf : faultOf i s = none) :
    (newStack i s).length ≤ 16 := by
  cases i with
  | ret => exact s.stack.dropLast_sublist.length_le.trans hs
  | call =>
    have := not_of_ite_eq_none hf
    simp only [newStack, List.length_append, List.length_cons, List.length_nil]
    omega
  | _ => exact hs

/-- A return address pushed is the advanced PC, at most 0x1000. -/
theorem newStack_toNat_le {i : Instr} {s : State} (hs : ∀ ra ∈ s.stack, ra.toNat ≤ 0x1000)
    (hpc : s.pc.toNat ≤ 0xFFE) : ∀ ra ∈ newStack i s, ra.toNat ≤ 0x1000 := by
  cases i with
  | ret => exact fun ra h => hs ra (List.mem_of_mem_dropLast h)
  | call =>
    intro ra h
    obtain h | h := List.mem_append.1 h
    · exact hs ra h
    · rw [List.mem_singleton.1 h, advanced_pc_toNat hpc]
      omega
  | _ => exact hs

theorem skipTo_le {a : Nat} (c : Prop) [Decidable c] (h : a ≤ 0xFFE) : skipTo a c ≤ 0x10FE := by
  rw [skipTo]
  split <;> omega

/-- BNNN reaches furthest: 0xFFF + 0xFF (R23). -/
theorem pcAfter_le {i : Instr} {s : State} (hs : ∀ ra ∈ s.stack, ra.toNat ≤ 0x1000) (hpc : s.pc.toNat ≤ 0xFFE) :
    pcAfter i s ≤ 0x10FE := by
  cases i with
  | ret =>
    obtain h | ⟨st, ra, h⟩ := List.eq_nil_or_concat' s.stack
    · simp [pcAfter, h]
    · have := hs ra (by simp [h])
      simp only [pcAfter, h, List.getLastD_concat]
      omega
  | jp nnn | call nnn => exact nnn.isLt.le.trans (by decide)
  | jpV0 nnn =>
    have := nnn.isLt
    have := (s.reg 0).isLt
    simp only [pcAfter]
    omega
  | seImm | sneImm | seReg | sneReg | skp | sknp => exact skipTo_le _ hpc
  | ldVxK =>
    rw [pcAfter]
    split <;> omega
  | _ => exact (Nat.add_le_add_right hpc 2).trans (by decide)

/-! ### Ways to the invariant -/

namespace State.Inv

variable {s t : State}

/-- In RUN the clauses about the record are those of the clear record. -/
theorem of_run (hmem : t.canonical = true) (hlen : t.stack.length ≤ 16) (haddr : ∀ ra ∈ t.stack, ra.toNat ≤ 0x1000)
    (hpc : t.pc.toNat ≤ 0x10FE) (hrom : t.rom.length ≤ 3584) (hclear : t.fault = FaultRecord.clear) : t.Inv where
  mem_wf := hmem
  stack_le := hlen
  stack_addr := haddr
  pc_le := hpc
  rom_le := hrom
  run_clear _ := hclear
  halted_pc h := absurd (congrArg FaultRecord.cause hclear) h
  halted_word h := absurd (congrArg FaultRecord.cause hclear) h

/-- A state with a record of a cause and otherwise that of `s` (R79). -/
theorem of_fault (hs : s.Inv) {c : FaultCause} {w : Word} {valid : Bool} {n : Info} (hc : c ≠ .none)
    (hvalid : valid = false ↔ c = .fetchOutOfRange) : (s.takeFault c w valid n).Inv where
  mem_wf := hs.mem_wf
  stack_le := hs.stack_le
  stack_addr := hs.stack_addr
  pc_le := hs.pc_le
  rom_le := hs.rom_le
  run_clear h := absurd h hc
  halted_pc _ := rfl
  halted_word _ := hvalid

/-- What the invariant does not speak of may change: it rests on MEM and FONT, STACK, PC, ROM and FAULT. -/
theorem of_same (hs : s.Inv) (hmem : t.canonical = true) (hstack : t.stack = s.stack) (hpc : t.pc = s.pc)
    (hrom : t.rom.length ≤ 3584) (hfault : t.fault = s.fault) : t.Inv where
  mem_wf := hmem
  stack_le := hstack ▸ hs.stack_le
  stack_addr := hstack ▸ hs.stack_addr
  pc_le := hpc ▸ hs.pc_le
  rom_le := hrom
  run_clear := hfault ▸ hs.run_clear
  halted_pc := hpc ▸ hfault ▸ hs.halted_pc
  halted_word := hfault ▸ hs.halted_word

theorem unitStep (hs : s.Inv) (h : UnitStep s t) : t.Inv := by
  cases h with
  | halted => exact hs
  | fetchFault => exact hs.of_fault nofun (by decide)
  | noop hrun hpc =>
    refine .of_run hs.mem_wf hs.stack_le hs.stack_addr ?_ hs.rom_le (hs.run_clear hrun)
    rw [State.advance_pc, advanced_pc_toNat hpc]
    omega
  | fault _ _ _ hf =>
    obtain ⟨hc, hfetch⟩ := cause_ne_none_of_faultOf hf
    exact hs.of_fault hc (iff_of_false nofun hfetch)
  | complete hrun hpc _ hf =>
    exact .of_run (completed_canonical hs.mem_wf hf) (newStack_length_le hs.stack_le hf)
      (newStack_toNat_le hs.stack_addr hpc) ((newPc_toNat _ hpc).trans_le (pcAfter_le hs.stack_addr hpc)) hs.rom_le
      (hs.run_clear hrun)

end State.Inv

/-! ### Transactions -/

/-- An image that fits ends at or below 0xFFF. -/
theorem image_fits {image : List Byte} (h : image.length ≤ 3584) : progBase + image.length ≤ memSize := by
  simp only [progBase, memSize]
  omega

theorem tooLarge_eq_false {image : List Byte} : tooLarge image = false ↔ image.length ≤ 3584 := by
  simp [tooLarge, progMax]

theorem State.load_of_fits (s : State) {image : List Byte} (h : image.length ≤ 3584) :
    s.load image = { s with mem := s.memWith progBase image, rom := image } := by
  rw [State.load, tooLarge_eq_false.2 h]
  rfl

theorem State.load_of_tooLarge (s : State) {image : List Byte} (h : tooLarge image = true) : s.load image = s :=
  if_pos h

theorem State.Inv.load {s : State} (hs : s.Inv) (image : List Byte) : (s.load image).Inv := by
  cases h : tooLarge image with
  | true => rwa [State.load_of_tooLarge s h]
  | false =>
    have hfit := tooLarge_eq_false.1 h
    rw [State.load_of_fits s hfit]
    exact hs.of_same (State.wf_memWith hs.mem_wf (.inr (image_fits hfit))) rfl rfl hfit rfl

theorem State.Inv.doReset {s : State} (hs : s.Inv) : s.doReset.Inv :=
  have hpc : (0x200#16).toNat ≤ 0x10FE := by decide
  .of_run (Memory.wf_writeAll rfl (.inr (image_fits hs.rom_le))) (Nat.zero_le _) nofun hpc hs.rom_le rfl

theorem State.Inv.transact {s t : State} {tr : Transaction} (hs : s.Inv) (h : transact tr s = .next t) : t.Inv := by
  cases tr with
  | step => exact hs.unitStep (unitStep_of_executionStep h)
  | load image => cases h; exact hs.load image
  | reset => cases h; exact hs.doReset
  | tick | setKeys => cases h; exact hs.of_same hs.mem_wf rfl rfl hs.rom_le rfl
  | readFb | readSound | readFault => cases h; exact hs

/-- Settles O16: nothing is listed, the stack and ROM are empty, and FAULT is clear. -/
theorem invariantAtReset : Obligations.InvariantAtReset :=
  .of_run State.canonical_reset (Nat.zero_le _) nofun (by decide) (Nat.zero_le _) rfl

/-- Settles O17: what waits is no part of the invariant, and each transaction keeps it. -/
theorem invariantKeptByEveryStep : Obligations.InvariantKeptByEveryStep := by
  intro s t hs h
  obtain ⟨tr, rest, hstep⟩ := step_eq_transact s
  have hs' : { s with agenda := rest }.Inv := hs.of_same hs.mem_wf rfl rfl hs.rom_le rfl
  exact hs'.transact (hstep.symm.trans h)

end Sys2Proof.Machine
end

section
/-! Decoding and encoding (30_encoding.md): the two are inverse to each other, and the rows of the opcode map are
disjoint. -/

namespace Sys2Proof

/-! ### Words of the spec -/

/-- Settles O1: each word is decoded under each value of DECODE_5_9. -/
theorem specWordsDecode : Obligations.SpecWordsDecode
  | .strict => by decide
  | .ignore => by decide

/-! ### Decode after encode (R58, R61) -/

/-- Settles O2: the leading nibble of the encoding selects the group, the trailing nibble or byte the row, and each
operand stands in its own field. -/
theorem decodeOfEncodeIsTheInstruction : Obligations.DecodeOfEncodeIsTheInstruction := by
  intro p i
  cases i
  case cls | ret => cases p <;> rfl
  case jp | call | ldI | jpV0 | seImm | sneImm | ldImm | addImm | rnd | drw => simp [decodeWith, encode]
  case seReg | sneReg => simp [decodeWith, encode, decodeLowNibble]
  case ldReg | orReg | andReg | xorReg | addReg | subReg | shr | subn | shl =>
    simp [decodeWith, encode, decodeGroup8]
  case skp | sknp => simp [decodeWith, encode, decodeGroupE]
  case ldVxDt | ldVxK | ldDtVx | ldStVx | addI | ldF | ldB | storeRegs | loadRegs =>
    simp [decodeWith, encode, decodeGroupF]

/-- Settles O5: each group the decoder accepts keeps every bit of the word, in the row's fixed bits or an operand. -/
theorem encodeOfDecodeIsTheWord : Obligations.EncodeOfDecodeIsTheWord :=
  fun _ _ => encode_of_decodeWith_strict

/-! ### Disjoint rows (R61) -/

/-- Two rows that agree on the bits both fix are the same row. -/
theorem opcodeMap_overlap (p : DecodePolicy) : ∀ r ∈ opcodeMap p, ∀ q ∈ opcodeMap p,
    r.pattern &&& q.mask = q.pattern &&& r.mask → r = q := by
  cases p <;> decide

/-- Settles O4: on a word that hits both rows, each pattern is the word's, so they agree on the bits both fix. -/
theorem atMostOneRowMatches : Obligations.AtMostOneRowMatches := by
  intro p w r hr q hq hrw hqw
  refine opcodeMap_overlap p r hr q hq ?_
  rw [← Row.hits_iff.1 hrw, ← Row.hits_iff.1 hqw, BitVec.and_assoc, BitVec.and_assoc, BitVec.and_comm r.mask]

/-! ### The groups 5 and 9 (R64) -/

theorem decodeLowNibble_strict (w : Word) (i : Instr) :
    decodeLowNibble .strict w i = if nField w = 0#4 then some i else none := rfl

/-- Settles O6: only the groups 5 and 9 read the parameter, and under `strict` each tests the low nibble. -/
theorem lowNibbleOfGroups5And9 : Obligations.LowNibbleOfGroups5And9 := by
  refine fun w => ⟨fun h5 => ⟨decodeWith_ignore_of_op5 h5, ?_⟩, fun h9 => ⟨decodeWith_ignore_of_op9 h9, ?_⟩,
    decodeWith_ignore_eq_strict⟩
  · simp [decodeWith, h5, decodeLowNibble_strict]
  · simp [decodeWith, h9, decodeLowNibble_strict]

end Sys2Proof
end

section
/-! Control flow (41_control_flow.md): the return, the call and the indexed jump. -/

namespace Sys2Proof.Machine

/-- Settles O27: an empty stack takes the fault; from any other the last entry goes to PC. -/
theorem returnPopsTheStack : Obligations.ReturnPopsTheStack :=
  ⟨rfl, fun _ => ⟨execRet_empty, fun _ _ hs => ⟨_, execRet_next hs, rfl, rfl, onlyPc_of_write ..⟩⟩⟩

theorem execCall_next (nnn : Addr12) {s : State} (h : s.stack.length < 16) :
    execCall nnn s = .next { s.advance with stack := s.stack ++ [s.pc + 2#16], pc := zextAddr nnn } :=
  if_neg h.ne

/-- Settles O29: a full stack takes the fault; a shorter one gains the advanced PC. -/
theorem callPushesTheAdvancedPc : Obligations.CallPushesTheAdvancedPc :=
  fun nnn _ => ⟨encodedAs_of_mask (mask_addr ..), fun hfull => if_pos hfull,
    fun h => ⟨_, execCall_next nnn h, zextAddr_toNat nnn, rfl, onlyPc_of_write ..⟩⟩

/-- Settles O32: NNN and V0 are below 4096 and 256, so the 16-bit sum is exact. -/
theorem indexedJumpAddsV0 : Obligations.IndexedJumpAddsV0 :=
  fun nnn s => ⟨encodedAs_of_mask (mask_addr ..), _, rfl, indexedTarget_toNat nnn (s.reg 0), rfl, onlyPc_of_write ..⟩

/-- Settles O33: the entry the return pops is the one the call pushed. -/
theorem returnUndoesCall : Obligations.ReturnUndoesCall := by
  intro nnn s t u hlen hcall hstack
  cases (execCall_next nnn hlen).symm.trans hcall
  exact ⟨_, execRet_next hstack, rfl, rfl⟩

end Sys2Proof.Machine
end

section
/-! Registers and ALU (42_alu.md): what an instruction that writes a result and then a flag leaves unchanged, and with
it the addition, the subtractions, the shifts and the random byte. -/

namespace Sys2Proof.Machine

/-! ### Writing VX, then VF -/

theorem flagByte_toNat (c : Bool) : (flagByte c).toNat = if c = true then 1 else 0 := by
  cases c <;> rfl

/-- The result stands in VX unless VX is VF (R91). -/
theorem State.reg_setResultFlag_result (s : State) {x : Reg} (b : Byte) (c : Bool) (h : x ≠ vf) :
    (s.setResultFlag x b c).reg x = b :=
  ((s.setReg x b).reg_setReg_of_ne _ h).trans (s.reg_setReg_self x b)

/-- The flag stands in VF, whatever X is (D15). -/
theorem State.reg_setResultFlag_flag (s : State) (x : Reg) (b : Byte) (c : Bool) :
    (s.setResultFlag x b c).reg vf = flagByte c := State.reg_setReg_self ..

/-- The advance followed by a result and a flag changes VX, VF and PC only (R20). -/
theorem advance_setResultFlag_frame (s : State) (x : Reg) (b : Byte) (c : Bool) :
    OnlyRegs (fun r => r = x ∨ r = vf) s (s.advance.setResultFlag x b c) ∧
      Advanced s (s.advance.setResultFlag x b c) :=
  ⟨onlyRegs_of_write fun _ hr => s.advance.reg_setResultFlag_of_ne b c hr, rfl, rfl⟩

/-- What the statements of 8XY4 to 8XYE ask: VX holds the value `n` unless VX is VF, and VF the value `m`. -/
theorem resultFlag_answers (s : State) (x : Reg) {b : Byte} {c : Bool} {n m : Nat} (hb : b.toNat = n)
    (hc : (flagByte c).toNat = m) :
    ∃ t, (.next (s.advance.setResultFlag x b c) : Result) = .next t ∧ (x ≠ vf → (t.reg x).toNat = n) ∧
      (t.reg vf).toNat = m ∧ OnlyRegs (fun r => r = x ∨ r = vf) s t ∧ Advanced s t :=
  ⟨_, rfl, fun hx => by rw [State.reg_setResultFlag_result _ _ _ hx, hb],
    by rw [State.reg_setResultFlag_flag, hc], advance_setResultFlag_frame ..⟩

/-! ### 8XY4 to 8XYE -/

theorem carryOut_toNat (x y : Byte) : (flagByte (carryOut x y)).toNat = if x.toNat + y.toNat > 255 then 1 else 0 := by
  simp only [flagByte_toNat, carryOut, decide_eq_true_eq]

theorem noBorrow_toNat (x y : Byte) : (flagByte (noBorrow x y)).toNat = if x.toNat ≥ y.toNat then 1 else 0 := by
  simp only [flagByte_toNat, noBorrow, decide_eq_true_eq]

theorem sub_toNat (x y : Byte) : (x - y).toNat = (x.toNat + 256 - y.toNat) % 256 := by
  have := y.isLt
  rw [BitVec.toNat_sub]
  omega

theorem lowBit_toNat (y : Byte) : (flagByte (lowBit y)).toNat = y.toNat % 2 := by
  decide +revert

theorem highBit_toNat (y : Byte) : (flagByte (highBit y)).toNat = y.toNat / 128 := by
  decide +revert

theorem shl_one_toNat (y : Byte) : (y <<< 1).toNat = y.toNat * 2 % 256 := by
  simp [Nat.shiftLeft_eq]

theorem shr_one_toNat (y : Byte) : (y >>> 1).toNat = y.toNat / 2 := by
  simp [Nat.shiftRight_eq_div_pow]

/-- Settles O36: the 8-bit sum is the sum modulo 256, and the carry tells whether it differs from the sum. -/
theorem addSetsCarry : Obligations.AddSetsCarry :=
  fun x _ s => ⟨encodedAs_of_mask (mask_nibbles ..), resultFlag_answers s x (BitVec.toNat_add ..) (carryOut_toNat ..)⟩

/-- Settles O37: the two differ in which operand is subtracted. -/
theorem subtractSetsNoBorrow : Obligations.SubtractSetsNoBorrow :=
  fun x _ s => ⟨encodedAs_of_mask (mask_nibbles ..), encodedAs_of_mask (mask_nibbles ..),
    resultFlag_answers s x (sub_toNat ..) (noBorrow_toNat ..),
    resultFlag_answers s x (sub_toNat ..) (noBorrow_toNat ..)⟩

/-- Settles O38: halving VY drops bit 0 and doubling it drops bit 7. -/
theorem shiftsReadVy : Obligations.ShiftsReadVy :=
  fun x _ s => ⟨encodedAs_of_mask (mask_nibbles ..), encodedAs_of_mask (mask_nibbles ..),
    resultFlag_answers s x (shr_one_toNat _) (lowBit_toNat _),
    resultFlag_answers s x (shl_one_toNat _) (highBit_toNat _)⟩

/-! ### CXNN -/

/-- Settles O39: VX takes the masked byte of this draw, and the next draw is another. -/
theorem randomByteIsMasked : Obligations.RandomByteIsMasked :=
  fun x _ s => ⟨encodedAs_of_mask (mask_imm ..), _, rfl, s.reg_setReg_self x _,
    advance_setReg_frame { s with draws := s.draws + 1 } x _⟩

end Sys2Proof.Machine
end

section
/-! Index and memory (43_index_memory.md): FX29 and FX1E, and the instructions that store to and load from memory. -/

namespace Sys2Proof.Machine

/-! ### FX29, FX1E -/

/-- Settles O42: 5 * VX is at most 1275, which 16 bits hold exactly. -/
theorem indexAtGlyph : Obligations.IndexAtGlyph := by
  refine fun x s => ⟨encodedAs_of_mask (mask_byte ..), _, rfl, ?_, advance_writeI_frame s _⟩
  have := (s.reg x).isLt
  show (BitVec.ofNat 16 ((s.reg x).toNat * 5)).toNat = _
  rw [BitVec.toNat_ofNat]
  omega

theorem pastAddressable_toNat (i : Word) (b : Byte) :
    (flagByte (pastAddressable i b)).toNat = if i.toNat + b.toNat > 0xFFF then 1 else 0 := by
  simp only [flagByte_toNat, pastAddressable, decide_eq_true_eq]
  rfl

/-- Settles O43: I takes the 16-bit sum, and the flag is of the exact one. -/
theorem addToIndexSetsRangeFlag : Obligations.AddToIndexSetsRangeFlag := by
  refine fun x s => ⟨encodedAs_of_mask (mask_byte ..), _, rfl, ?sum, ?flag,
    advance_setReg_frame { s with i := s.i + zextByte (s.reg x) } vf _⟩
  case sum => exact (BitVec.toNat_add ..).trans (by rw [zextByte_toNat])
  case flag => rw [State.setFlag, State.reg_setReg_self, pastAddressable_toNat]

/-! ### FX33, FX55 -/

/-- The advance followed by a write of MEM changes nothing but MEM and PC (R20). -/
theorem advance_writeMem_frame (s : State) (m : Memory) :
    OnlyMem s { s.advance with mem := m } ∧ Advanced s { s.advance with mem := m } :=
  ⟨⟨fun _ _ => rfl, ⟨rfl, rfl, rfl, rfl⟩, ⟨rfl, rfl, rfl, rfl, rfl⟩, rfl, rfl⟩, rfl, rfl⟩

/-- A byte stored at I reads back. -/
theorem State.read_memWith_base {s : State} {bs : List Byte} {k : Nat} (hs : s.canonical = true)
    (hfit : s.base + bs.length ≤ memSize) (hk : k < bs.length) :
    (s.memWith s.base bs).read s.font (s.base + k) = bs[k] := by
  rw [State.read_memWith hs (.inr hfit), dif_pos (by omega)]
  simp only [Nat.add_sub_cancel_left]

/-- Each digit is below 10 and so fits its byte. -/
theorem bcdDigits_toNat (b : Byte) : (bcdDigits b)[0].toNat = b.toNat / 100 ∧
    (bcdDigits b)[1].toNat = b.toNat / 10 % 10 ∧ (bcdDigits b)[2].toNat = b.toNat % 10 := by
  have := b.isLt
  exact ⟨Nat.mod_eq_of_lt (by omega), Nat.mod_eq_of_lt (by omega), Nat.mod_eq_of_lt (by omega)⟩

/-- Settles O44: the three digits of VX read back where they are stored. -/
theorem decimalDigitsStored : Obligations.DecimalDigitsStored := by
  refine fun x s => ⟨encodedAs_of_mask (mask_byte ..), fun hpast => exec_of_fault (if_pos hpast), fun hin =>
    ⟨_, exec_of_no_fault (if_neg (Nat.not_lt.2 hin)), fun hs => ?digits, completed_byte_outside (.ldB x) s,
      advance_writeMem_frame ..⟩⟩
  have hfit : s.base + (bcdDigits (s.reg x)).length ≤ memSize := Nat.succ_le_succ hin
  have hread {k : Nat} (hk : k < 3) : (completed (.ldB x) s).byte (s.base + k) = (bcdDigits (s.reg x))[k] :=
    State.read_memWith_base hs hfit hk
  obtain ⟨hhundreds, htens, hunits⟩ := bcdDigits_toNat (s.reg x)
  exact ⟨(congrArg BitVec.toNat (hread (k := 0) (by decide))).trans hhundreds,
    (congrArg BitVec.toNat (hread (by decide))).trans htens, (congrArg BitVec.toNat (hread (by decide))).trans hunits⟩

/-- Settles O45: the register file's first X + 1 entries read back where they are stored. -/
theorem registersStored : Obligations.RegistersStored := by
  refine fun x s => ⟨encodedAs_of_mask (mask_byte ..), fun hpast => exec_of_fault (if_pos hpast), fun hin =>
    ⟨_, exec_of_no_fault (if_neg (Nat.not_lt.2 hin)), fun hs r hr => ?stored, completed_byte_outside (.storeRegs x) s,
      advance_writeMem_frame ..⟩⟩
  have hlen := s.length_regsUpTo x
  refine (State.read_memWith_base hs ?_ ?_).trans (s.getElem_regsUpTo x _)
  · rw [hlen]
    exact Nat.succ_le_succ hin
  · rw [hlen]
    exact Nat.lt_succ_of_le hr

/-! ### FX65 -/

/-- Settles O46: the bytes at I go to the first X + 1 registers. -/
theorem registersLoaded : Obligations.RegistersLoaded := by
  refine fun x s => ⟨encodedAs_of_mask (mask_byte ..), fun hpast => exec_of_fault (if_pos hpast), fun hin =>
    ⟨_, exec_of_no_fault (if_neg (Nat.not_lt.2 hin)), fun r hr => ?loaded,
      onlyRegs_of_write fun r hr => completed_reg_of_not_writesReg (i := .loadRegs x) s hr, rfl, rfl⟩⟩
  have hlen := s.length_bytes s.base (x.val + 1)
  have hblock : 0 ≤ r.val ∧ r.val < 0 + (s.bytes s.base (x.val + 1)).length := by
    rw [hlen, Nat.zero_add]
    exact ⟨Nat.zero_le _, Nat.lt_succ_of_le hr⟩
  refine (s.advance.reg_setRegsFrom 0 (s.bytes s.base (x.val + 1)) r).trans ?_
  rw [dif_pos hblock, State.getElem_bytes, Nat.sub_zero]

/-! ### What FX55 stored, read again -/

/-- FX55 in range leaves I, and V0..VX where it stored them. -/
theorem stored_of_exec_storeRegs {x : Reg} {s t : State} (hs : s.canonical = true) (hin : s.base + x.val ≤ 0xFFF)
    (h : exec (.storeRegs x) s = .next t) : t.i = s.i ∧ ∀ r ≤ x, t.byte (s.base + r.val) = s.reg r := by
  obtain ⟨_, _, hstore⟩ := registersStored x s
  obtain ⟨t', ht', hbytes, _, ⟨_, _, _, hi, _⟩, _⟩ := hstore hin
  cases ht'.symm.trans h
  exact ⟨hi, hbytes hs⟩

/-- Settles O47: the load reads, at the same I, the bytes the store left. -/
theorem storeThenLoadRestoresRegisters : Obligations.StoreThenLoadRestoresRegisters := by
  intro x s t u hs hin hstore hui hbytes
  obtain ⟨hti, hstored⟩ := stored_of_exec_storeRegs hs hin hstore
  have hbase : u.base = s.base := congrArg BitVec.toNat (hui.trans hti)
  obtain ⟨_, _, hload⟩ := registersLoaded x u
  obtain ⟨w, hw, hloaded, _⟩ := hload (hbase ▸ hin)
  exact ⟨w, hw, fun r hr => by rw [hloaded r hr, hbytes, hbase, hstored r hr]⟩

/-- Settles O49: the fetch reads the two bytes at its PC, and the store left the two registers there. -/
theorem fetchSeesStoredBytes : Obligations.FetchSeesStoredBytes := by
  intro x a b s t hs hstore hin ha hb hab
  obtain ⟨_, hstored⟩ := stored_of_exec_storeRegs hs hin hstore
  have hpc : (s.i + BitVec.ofNat 16 a.val).toNat = s.base + a.val := by
    have : s.i.toNat + x.val ≤ 0xFFF := hin
    rw [State.base, BitVec.toNat_add, BitVec.toNat_ofNat]
    omega
  have hlast : (s.i + BitVec.ofNat 16 a.val).toNat + 1 ≤ addrMax := by
    have : b.val ≤ x.val := hb
    rw [hpc, addrMax]
    omega
  refine (State.fetchWord_eq (s := { t with pc := s.i + BitVec.ofNat 16 a.val }) hlast).trans ?_
  show Except.ok (wordOfBytes (t.byte (s.i + BitVec.ofNat 16 a.val).toNat)
    (t.byte ((s.i + BitVec.ofNat 16 a.val).toNat + 1))) = _
  rw [hpc, Nat.add_assoc, ← hab, hstored a ha, hstored b hb]

end Sys2Proof.Machine
end

section
/-! Keypad and timers (45_keypad_timers.md, 60_exceptions.md section 4): the skips on a key, the tick, and the timer read
after ticks. -/

namespace Sys2Proof.Machine

/-! ### EX9E, EXA1 -/

theorem exec_skp_of_le {x : Reg} {s : State} (h : (s.reg x).toNat ≤ 0xF) :
    exec (.skp x) s = .next (s.advance.skipIf (s.keyDown (s.reg x).toNat)) := if_neg (Nat.not_lt.2 h)

theorem exec_sknp_of_le {x : Reg} {s : State} (h : (s.reg x).toNat ≤ 0xF) :
    exec (.sknp x) s = .next (s.advance.skipIf (!s.keyDown (s.reg x).toNat)) := if_neg (Nat.not_lt.2 h)

/-- Settles O55: a VX that names no key takes the fault; one that does decides the skip, the two the other way round. -/
theorem keySkips : Obligations.KeySkips := by
  refine fun x s => ⟨encodedAs_of_mask (mask_byte ..), encodedAs_of_mask (mask_byte ..),
    fun hpast => ⟨exec_of_fault (if_pos hpast), exec_of_fault (if_pos hpast)⟩, fun hin => ⟨?skp, ?sknp⟩⟩
  case skp =>
    rw [exec_skp_of_le hin]
    exact skips_when s Iff.rfl
  case sknp =>
    rw [exec_sknp_of_le hin]
    exact skips_unless s (by simp [State.keyDown])

/-! ### Ticks -/

theorem countDown_toNat (b : Byte) : (countDown b).toNat = b.toNat - 1 := by
  decide +revert

/-- Settles O21: each timer is counted down by itself. -/
theorem tickTransaction : Obligations.TickTransaction :=
  fun s => ⟨_, rfl, countDown_toNat s.dt, countDown_toNat s.st, rfl⟩

theorem State.ticks_dt_toNat (s : State) (n : Nat) : (s.ticks n).dt.toNat = s.dt.toNat - n := by
  induction n with
  | zero => rfl
  | succ n ih => rw [State.ticks, State.tick_dt, countDown_toNat, ih, Nat.sub_sub]

/-- Settles O58: FX15 puts VX in DT, each tick takes 1 of it, and FX07 reads what is left. -/
theorem timerReadAfterTicks : Obligations.TimerReadAfterTicks := by
  refine fun x y n s => ⟨_, _, rfl, rfl, ?_⟩
  rw [State.reg_setReg_self, State.ticks_dt_toNat]

end Sys2Proof.Machine
end

section
/-! Power-on, reset, load and the reads (70_reset_and_hazards.md section 1, 20_memory.md section 2, 10_state.md R36). -/

namespace Sys2Proof.Machine

/-! ### Power-on (R37, R144) -/

theorem powerOnByte_eq (f : Font) (a : Nat) : powerOnByte f a = if h : a < 80 then f[a] else 0#8 := by
  by_cases h : a < 80
  · rw [dif_pos h, powerOnByte_of_lt h]
  · rw [dif_neg h, powerOnByte_of_le (Nat.le_of_not_lt h)]

@[simp] theorem State.reg_powerOn (f : Font) (r : Reg) : (State.powerOn f).reg r = 0#8 :=
  Vector.getElem_replicate r.isLt

/-- Settles O18: nothing is written yet, so each field reads as power-on gives it, memory as FONT and zeros. -/
theorem powerOnState : Obligations.PowerOnState :=
  ⟨fun f => ⟨State.reg_powerOn f, rfl, rfl, rfl, rfl, rfl, Framebuffer.pixel_off, fun _ _ => BitVec.getLsbD_zero,
    powerOnByte_eq f, rfl, rfl⟩, rfl, rfl⟩

/-! ### Reset (R141, R142) -/

theorem read_resetMemory_reload {s : State} (hrom : s.rom.length ≤ 3584) (a : Nat) :
    (s.resetMemory .reload).read s.font a =
      if 0x200 ≤ a ∧ a < 0x200 + s.rom.length then s.rom.getD (a - 0x200) 0#8 else powerOnByte s.font a := by
  refine (Memory.read_writeAll (m := []) rfl (.inr (image_fits hrom)) a).trans ?_
  by_cases h : 0x200 ≤ a ∧ a < 0x200 + s.rom.length
  · rw [if_pos h]
    exact (dif_pos h).trans (List.getElem_eq_getD _)
  · rw [if_neg h]
    exact dif_neg h

/-- Settles O19: reset is power-on with the core's FONT, but for the fields it keeps and for MEM, which the ROM
overwrites from 0x200 on. -/
theorem resetTransaction : Obligations.ResetTransaction := by
  refine fun s hrom => ⟨_, rfl, State.reg_powerOn s.font, rfl, rfl, rfl, rfl, rfl, Framebuffer.pixel_off, rfl, rfl, rfl,
    rfl, rfl, rfl, rfl, fun a => ?reload, fun _ => rfl, powerOnByte_eq s.font⟩
  rw [read_resetMemory_reload hrom, powerOnByte_eq]

/-! ### Load (R44, R45) -/

/-- Settles O20: an image that does not fit is refused; one that fits reads back at 0x200. -/
theorem loadTransaction : Obligations.LoadTransaction := by
  refine fun s image => ⟨fun hbig => ?refused, fun hfit hs => ?loaded⟩
  case refused =>
    have hbig : tooLarge image = true := decide_eq_true hbig
    exact ⟨congrArg Host.Outcome.next (State.load_of_tooLarge s hbig), if_pos hbig⟩
  case loaded =>
    have hsmall : ¬tooLarge image = true := Bool.eq_false_iff.1 (tooLarge_eq_false.2 hfit)
    refine ⟨_, congrArg Host.Outcome.next (State.load_of_fits s hfit), if_neg hsmall, rfl, fun j hj => ?_,
      fun a ha => s.read_memWith_outside image ha, rfl⟩
    refine (State.read_memWith hs (.inr (image_fits hfit)) (progBase + j)).trans ?_
    rw [dif_pos ⟨Nat.le_add_right .., Nat.add_lt_add_left hj _⟩]
    simp only [Nat.add_sub_cancel_left]

/-! ### Keys and reads -/

/-- Settles O22: by the definitions of the transactions. -/
theorem keysAndReads : Obligations.KeysAndReads :=
  fun _ _ => ⟨rfl, ⟨rfl, rfl⟩, ⟨rfl, rfl⟩, ⟨rfl, rfl⟩⟩

end Sys2Proof.Machine
end

section
/-! Runs (70_reset_and_hazards.md sections 2 and 5): over zero bytes, and at a jump to itself. -/

namespace Sys2Proof.Machine

/-! ### Zero bytes (R146) -/

theorem decode_zero : decode 0x0000#16 = none := by
  rw [decode]
  cases decodePolicy <;> rfl

/-- Over two zero bytes a step advances PC, and changes nothing else when `changed` is 0. -/
theorem step_over_zeros {s : State} (hidle : s.agenda = []) (hrun : s.fault.cause = .none) (hch : s.changed = false)
    (hpc : s.pc.toNat ≤ 0xFFE) (hhi : s.byte s.pc.toNat = 0#8) (hlo : s.byte (s.pc.toNat + 1) = 0#8) :
    step s = .next { s with pc := s.pc + 2#16 } := by
  have hword : s.wordAtPc = 0x0000#16 := by rw [State.wordAtPc, hhi, hlo]; rfl
  rw [step_of_fetches ⟨hrun, hidle, hpc, hword⟩, runWord_none decode_zero, State.advance, ← hch]

theorem step_at_end {s : State} (hidle : s.agenda = []) (hrun : s.fault.cause = .none) (hpc : s.pc = 0x1000#16) :
    step s = .next { s with fault := ⟨.fetchOutOfRange, 0x1000#16, 0#16, false, 0x1000#17⟩ } := by
  rw [step_idle hidle, executionStep_past hrun (by rw [hpc]; decide), State.takeFault, hpc]
  rfl

/-- A run goes on from the state its first step answers. -/
theorem run_succ_of_step {M : Host.Core} {s t : M.State} (h : M.step s = .next t) (k : Nat) :
    M.run (k + 1) s = M.run k t := by
  rw [Host.Core.run, h]

theorem run_succ {s t : State} (h : step s = .next t) (k : Nat) :
    Host.Core.run core (k + 1) s = Host.Core.run core k t := run_succ_of_step (M := core) h k

/-- Settles O25: each step over zeros leaves a state of the same kind two bytes on; at 0x1000 the fetch faults. -/
theorem zeroBytesRunToTheFetchFault : Obligations.ZeroBytesRunToTheFetchFault := by
  intro k
  induction k with
  | zero =>
    intro s hidle hrun _ _ _
    refine ⟨?_, fun hend => ?_⟩
    · rw [Nat.mul_zero, BitVec.add_zero]
      rfl
    · have hpc : s.pc = 0x1000#16 := BitVec.eq_of_toNat_eq hend
      rw [run_succ (step_at_end hidle hrun hpc), ← hpc]
      rfl
  | succ k ih =>
    intro s hidle hrun hch hle hzero
    have hstep := step_over_zeros hidle hrun hch (by omega) (hzero _ (by omega) (by omega))
      (hzero _ (by omega) (by omega))
    have hpc : (s.pc + 2#16).toNat = s.pc.toNat + 2 := advanced_pc_toNat (by omega)
    obtain ⟨hk, hend⟩ := ih { s with pc := s.pc + 2#16 } hidle hrun hch
      (show (s.pc + 2#16).toNat + 2 * k ≤ 0x1000 by omega)
      (fun a (ha : (s.pc + 2#16).toNat ≤ a) hlt => hzero a (by omega) hlt)
    rw [run_succ hstep, run_succ hstep]
    refine ⟨hk.trans ?_, fun h => hend (show (s.pc + 2#16).toNat + 2 * k = 0x1000 by omega)⟩
    have hadd : s.pc + 2#16 + BitVec.ofNat 16 (2 * k) = s.pc + BitVec.ofNat 16 (2 * (k + 1)) := by
      rw [BitVec.add_assoc, ← BitVec.ofNat_add, Nat.mul_succ, Nat.add_comm 2]
    rw [← hadd]

/-! ### A jump to itself (R153) -/

theorem encode_jp_toNat (a : Addr12) : (encode (.jp a)).toNat = 0x1000 + a.toNat := by
  show (0x1#4 ++ a : Word).toNat = _
  rw [BitVec.toNat_append, ← Nat.shiftLeft_add_eq_or_of_lt a.isLt]
  rfl

/-- Settles O26: the word at PC is the encoding of the jump to PC, and that jump undoes the advance. -/
theorem selfJumpEndsARun : Obligations.SelfJumpEndsARun := by
  intro s hidle hended
  obtain ⟨hrun, hpc, hword⟩ := hended
  have ha : (BitVec.ofNat 12 s.pc.toNat).toNat = s.pc.toNat := by
    rw [BitVec.toNat_ofNat]
    omega
  have hself : zextAddr (BitVec.ofNat 12 s.pc.toNat) = s.pc :=
    BitVec.eq_of_toNat_eq ((zextAddr_toNat _).trans ha)
  have hjump : s.wordAtPc = encode (.jp (BitVec.ofNat 12 s.pc.toNat)) :=
    BitVec.eq_of_toNat_eq (by rw [hword, encode_jp_toNat, ha])
  refine ⟨?_, respond_step_of_run hrun⟩
  rw [step_of_fetches ⟨hrun, hidle, hpc, hjump⟩, runWord_instr (decodeOfEncodeIsTheInstruction _ _)]
  show (.next { s with pc := zextAddr (BitVec.ofNat 12 s.pc.toNat), changed := false } : Result) = _
  rw [hself]

end Sys2Proof.Machine
end

section
/-! The drawing loop (44_display.md R112 to R115): the pixels it plots, in order, as a list without repetition, and what
plotting such a list does. -/

namespace Sys2Proof.Machine

/-! ### Plotting a list of pixels -/

/-- A pixel by column and row. -/
abbrev Pixel := Fin 64 × Fin 32

/-- XOR a 1 bit into each pixel of a list, in order. -/
def Canvas.plotAll (cv : Canvas) (ps : List Pixel) : Canvas := ps.foldl (fun cv p => cv.plot p.1 p.2) cv

theorem Canvas.plotAll_cons (cv : Canvas) (p : Pixel) (ps : List Pixel) :
    cv.plotAll (p :: ps) = (cv.plot p.1 p.2).plotAll ps := rfl

theorem Canvas.plotAll_append (cv : Canvas) (ps qs : List Pixel) :
    cv.plotAll (ps ++ qs) = (cv.plotAll ps).plotAll qs := List.foldl_append

/-- One plot inverts its own pixel. -/
theorem Canvas.plot_pixel (cv : Canvas) (p : Pixel) (x : Fin 64) (y : Fin 32) :
    (cv.plot p.1 p.2).fb.pixel x y = (cv.fb.pixel x y ^^ decide ((x, y) = p)) := by
  rw [Canvas.plot_fb, Framebuffer.pixel_toggle, ← Bool.decide_and]
  simp only [Prod.ext_iff]

/-- Plotting pixels without repetition inverts each of them and no other. -/
theorem Canvas.plotAll_pixel {ps : List Pixel} (hnd : ps.Nodup) (cv : Canvas) (x : Fin 64) (y : Fin 32) :
    (cv.plotAll ps).fb.pixel x y = (cv.fb.pixel x y ^^ decide ((x, y) ∈ ps)) := by
  induction ps generalizing cv with
  | nil => simp [Canvas.plotAll]
  | cons p ps ih =>
    obtain ⟨hp, hps⟩ := List.nodup_cons.1 hnd
    rw [Canvas.plotAll_cons, ih hps, Canvas.plot_pixel]
    by_cases h : (x, y) = p
    · subst h; simp [hp]
    · simp [h]

/-- Plotting pixels without repetition hits exactly when one of them was on. -/
theorem Canvas.plotAll_hit {ps : List Pixel} (hnd : ps.Nodup) (cv : Canvas) :
    (cv.plotAll ps).hit = true ↔ cv.hit = true ∨ ∃ p ∈ ps, cv.fb.pixel p.1 p.2 = true := by
  induction ps generalizing cv with
  | nil => simp [Canvas.plotAll]
  | cons p ps ih =>
    obtain ⟨hp, hps⟩ := List.nodup_cons.1 hnd
    have hkeep : ∀ q ∈ ps, (cv.plot p.1 p.2).fb.pixel q.1 q.2 = cv.fb.pixel q.1 q.2 := by
      intro q hq
      have hne : q ≠ p := fun e => hp (e ▸ hq)
      rw [Canvas.plot_pixel, decide_eq_false hne, Bool.xor_false]
    rw [Canvas.plotAll_cons, ih hps, Canvas.plot_hit, Bool.or_eq_true, List.exists_mem_cons_iff, or_assoc]
    refine or_congr_right (or_congr_right (exists_congr fun q => and_congr_right fun hq => ?_))
    rw [hkeep q hq]

/-! ### The pixels the loop plots -/

variable {edge : SpriteEdge} {x0 y0 : Nat}

/-- The pixel the bit `c` of a sprite row plots, if it is a 1 bit and is drawn. -/
def bitPixel (edge : SpriteEdge) (x0 : Nat) (y : Fin 32) (b : Byte) (c : Nat) : Option Pixel :=
  if b.getLsbD (7 - c) then (spriteColumn edge x0 c).map (·, y) else none

/-- The pixels one row of a sprite plots. -/
def rowPixels (edge : SpriteEdge) (x0 : Nat) (y : Fin 32) (b : Byte) : List Pixel :=
  (List.range 8).filterMap (bitPixel edge x0 y b)

/-- The pixels the rows of a sprite plot, from row `r` down. -/
def spritePixels (edge : SpriteEdge) (x0 y0 : Nat) : Nat → List Byte → List Pixel
  | _, [] => []
  | r, b :: bs => rowPixels edge x0 (spriteRow y0 r) b ++ spritePixels edge x0 y0 (r + 1) bs

theorem Canvas.drawBit_eq (y : Fin 32) (b : Byte) (cv : Canvas) (c : Nat) :
    cv.drawBit edge x0 y b c = (bitPixel edge x0 y b c).elim cv fun p => cv.plot p.1 p.2 := by
  unfold Canvas.drawBit bitPixel
  split
  · cases spriteColumn edge x0 c <;> rfl
  · rfl

theorem Canvas.drawRow_eq (y : Fin 32) (b : Byte) (cv : Canvas) :
    cv.drawRow edge x0 y b = cv.plotAll (rowPixels edge x0 y b) := by
  rw [Canvas.plotAll, rowPixels, List.foldl_filterMap, Canvas.drawRow]
  congr
  funext cv c
  rw [Canvas.drawBit_eq]
  cases bitPixel edge x0 y b c <;> rfl

theorem Canvas.drawRows_eq (r : Nat) (bs : List Byte) (cv : Canvas) :
    Canvas.drawRows edge x0 y0 r bs cv = cv.plotAll (spritePixels edge x0 y0 r bs) := by
  induction bs generalizing r cv with
  | nil => rfl
  | cons b bs ih => rw [Canvas.drawRows, ih, Canvas.drawRow_eq, spritePixels, Canvas.plotAll_append]

theorem drawSprite_eq (bs : List Byte) (fb : Framebuffer) :
    drawSprite edge x0 y0 bs fb = Canvas.plotAll ⟨fb, false⟩ (spritePixels edge x0 y0 0 bs) :=
  Canvas.drawRows_eq ..

/-! ### Which pixels those are -/

theorem bitPixel_eq_some {y : Fin 32} {b : Byte} {c : Nat} {p : Pixel} :
    bitPixel edge x0 y b c = some p ↔ b.getLsbD (7 - c) = true ∧ spriteColumn edge x0 c = some p.1 ∧ p.2 = y := by
  obtain ⟨px, py⟩ := p
  simp [bitPixel, eq_comm (a := py)]

theorem mem_rowPixels {y : Fin 32} {b : Byte} {p : Pixel} : p ∈ rowPixels edge x0 y b ↔
    ∃ c < 8, b.getLsbD (7 - c) = true ∧ spriteColumn edge x0 c = some p.1 ∧ p.2 = y := by
  simp only [rowPixels, List.mem_filterMap, List.mem_range, bitPixel_eq_some]

theorem mem_spritePixels {r : Nat} {bs : List Byte} {p : Pixel} : p ∈ spritePixels edge x0 y0 r bs ↔
    ∃ k < bs.length, p ∈ rowPixels edge x0 (spriteRow y0 (r + k)) (bs.getD k 0#8) := by
  induction bs generalizing r with
  | nil => simp [spritePixels]
  | cons b bs ih =>
    rw [spritePixels, List.mem_append, ih, List.length_cons, Nat.exists_lt_succ_left]
    simp [Nat.add_assoc, Nat.add_comm 1]

theorem spriteColumn_wrap {c : Nat} {px : Fin 64} :
    spriteColumn .wrap x0 c = some px ↔ px.val = (x0 + c) % 64 := by
  simp only [spriteColumn, Option.some.injEq, Fin.ext_iff, Fin.ofNat, eq_comm]

theorem spriteColumn_clip {c : Nat} {px : Fin 64} : spriteColumn .clip x0 c = some px ↔ px.val = x0 + c := by
  have hx := px.isLt
  by_cases h : x0 + c ≥ 64
  · have hnone : spriteColumn .clip x0 c = none := if_pos h
    rw [hnone]
    exact iff_of_false nofun (by omega)
  · have hsome : spriteColumn .clip x0 c = some (Fin.ofNat 64 (x0 + c)) := if_neg h
    rw [hsome]
    simp only [Option.some.injEq, Fin.ext_iff, Fin.ofNat]
    omega

theorem eq_spriteRow {r : Nat} {py : Fin 32} : py = spriteRow y0 r ↔ py.val = (y0 + r) % 32 := Fin.ext_iff

theorem covers_iff_mem {bs : List Byte} {px : Fin 64} {py : Fin 32} :
    Covers edge x0 y0 bs.length (fun r => bs.getD r 0#8) px py ↔ (px, py) ∈ spritePixels edge x0 y0 0 bs := by
  simp only [mem_spritePixels, mem_rowPixels, eq_spriteRow, Nat.zero_add, Covers]
  cases edge
  case wrap => simp only [spriteColumn_wrap, and_comm (a := py.val = _)]
  case clip => simp only [spriteColumn_clip, and_comm (a := py.val = _)]

/-! ### No pixel twice -/

/-- Eight consecutive columns are distinct. -/
theorem spriteColumn_inj {c d : Nat} {px : Fin 64} (hc : c < 8) (hd : d < 8) (h : spriteColumn edge x0 c = some px)
    (h' : spriteColumn edge x0 d = some px) : c = d := by
  cases edge
  case wrap =>
    rw [spriteColumn_wrap] at h h'
    omega
  case clip =>
    rw [spriteColumn_clip] at h h'
    omega

theorem nodup_rowPixels (y : Fin 32) (b : Byte) : (rowPixels edge x0 y b).Nodup := by
  refine List.Pairwise.filterMap _ (R := fun c d => c < 8 ∧ d < 8 ∧ c ≠ d) ?_ ?_
  · rintro c d ⟨hc, hd, hne⟩ p hp _ hq rfl
    obtain ⟨_, hcol, _⟩ := bitPixel_eq_some.1 hp
    obtain ⟨_, hcol', _⟩ := bitPixel_eq_some.1 hq
    exact hne (spriteColumn_inj hc hd hcol hcol')
  · decide

/-- Rows less than 32 apart are distinct. -/
theorem spriteRow_inj {r k : Nat} (h : spriteRow y0 r = spriteRow y0 (r + k)) (hk : k < 32) : k = 0 := by
  have := congrArg Fin.val h
  simp only [spriteRow, Fin.ofNat] at this
  omega

theorem nodup_spritePixels {r : Nat} {bs : List Byte} (h : bs.length < 32) :
    (spritePixels edge x0 y0 r bs).Nodup := by
  induction bs generalizing r with
  | nil => exact List.nodup_nil
  | cons b bs ih =>
    rw [List.length_cons] at h
    refine List.nodup_append'.2 ⟨nodup_rowPixels .., ih (by omega), fun p hp hq => ?_⟩
    obtain ⟨_, _, _, _, hrow⟩ := mem_rowPixels.1 hp
    obtain ⟨k, hk, hq⟩ := mem_spritePixels.1 hq
    obtain ⟨_, _, _, _, hrow'⟩ := mem_rowPixels.1 hq
    have := spriteRow_inj (k := k + 1) (by rw [← hrow, hrow']; congr 1; omega) (by omega)
    omega

/-- Settles O52: the loop plots the covered pixels one by one, none of them twice. -/
theorem drawingLoopXorsTheMask : Obligations.DrawingLoopXorsTheMask := by
  intro edge x0 y0 bs fb _ _ hlen
  have hnd : (spritePixels edge x0 y0 0 bs).Nodup := nodup_spritePixels (by omega)
  rw [drawSprite_eq]
  refine ⟨fun px py => ?pixels, ?hit⟩
  case pixels =>
    rw [covers_iff_mem, Canvas.plotAll_pixel hnd]
    exact ⟨fun h => by simp [h], fun h => by simp [h]⟩
  case hit =>
    simp only [Canvas.plotAll_hit hnd, covers_iff_mem, Bool.false_eq_true, false_or, Prod.exists]

end Sys2Proof.Machine
end

section
/-! DXYN (44_display.md R111 to R115): the drawing of a completed instruction is that of the loop, with the rows read
from memory at I, and drawing twice restores FB. -/

namespace Sys2Proof.Machine

/-! ### The mask of DXYN -/

/-- The pixels covered depend on the rows of the sprite only. -/
theorem Covers.congr_rows {edge : SpriteEdge} {x0 y0 n : Nat} {row row' : Nat → Byte} (h : ∀ r < n, row r = row' r) :
    Covers edge x0 y0 n row = Covers edge x0 y0 n row' := by
  funext px py
  refine propext (exists_congr fun r => and_congr_right fun hr => ?_)
  rw [h r hr]

theorem covers_bytes (x y : Reg) (n : Nibble) (s : State) :
    Covers spriteEdge (anchorX (s.reg x)) (anchorY (s.reg y)) (s.bytes s.base n.toNat).length
      (fun r => (s.bytes s.base n.toNat).getD r 0#8) = drawMask x y n s := by
  rw [State.length_bytes]
  refine Covers.congr_rows fun r hr => ?_
  have hlt : r < (s.bytes s.base n.toNat).length := by rwa [State.length_bytes]
  rw [← List.getElem_eq_getD (h := hlt), State.getElem_bytes]
  rfl

/-- The anchor is in range and a sprite has at most 15 rows, so O52 speaks of what DXYN draws. -/
theorem State.drawn_xorsMask (x y : Reg) (n : Nibble) (s : State) :
    XorsMask (drawMask x y n s) s.fb (s.drawn x y n).fb ∧
    ((s.drawn x y n).hit = true ↔ ∃ px py, drawMask x y n s px py ∧ s.fb.pixel px py = true) := by
  rw [← covers_bytes]
  refine drawingLoopXorsTheMask spriteEdge _ _ _ s.fb (Nat.mod_lt _ (by decide)) (Nat.mod_lt _ (by decide)) ?_
  rw [State.length_bytes]
  exact Nat.le_of_lt_succ n.isLt

theorem completed_drw_reg_vf (x y : Reg) (n : Nibble) (s : State) :
    (completed (.drw x y n) s).reg vf = flagByte (s.drawn x y n).hit := s.reg_setReg_self ..

theorem flagByte_eq_one_iff (c : Bool) : flagByte c = 1#8 ↔ c = true := by
  cases c <;> decide

/-- The range check of DXYN, as its statements write it. -/
theorem not_past_of_inside {a n : Nat} (h : n = 0 ∨ a + n - 1 ≤ 0xFFF) : ¬(0 < n ∧ a + n - 1 > 0xFFF) := by
  omega

/-- Settles O53: past memory the fault is taken; in range the loop draws, and VF is its hit. -/
theorem Display.drawSprite : Obligations.DrawSprite := by
  refine fun x y n s => ⟨encodedAs_of_mask (mask_draw ..), fun hpast => exec_of_fault (if_pos hpast), fun hin => ?_⟩
  obtain ⟨hfb, hhit⟩ := s.drawn_xorsMask x y n
  refine ⟨_, exec_of_no_fault (if_neg (not_past_of_inside hin)), hfb, ?_, rfl, rfl,
    onlyRegs_of_write (s := { s with fb := (s.drawn x y n).fb })
      fun r hr => completed_reg_of_not_writesReg (i := .drw x y n) s hr⟩
  rw [completed_drw_reg_vf, ← hhit]
  cases (s.drawn x y n).hit with
  | true => exact .inl ⟨rfl, rfl⟩
  | false => exact .inr ⟨Bool.false_ne_true, rfl⟩

/-! ### Drawing twice (R115 (b)) -/

/-- Inverting the same pixels twice restores them. -/
theorem XorsMask.cancel {m : Fin 64 → Fin 32 → Prop} {a b c : Framebuffer} (hab : XorsMask m a b)
    (hbc : XorsMask m b c) : c = a := by
  refine Framebuffer.ext_pixel fun px py => ?_
  obtain ⟨hin, hout⟩ := hab px py
  obtain ⟨hin', hout'⟩ := hbc px py
  by_cases h : m px py
  · rw [hin' h, hin h, Bool.not_not]
  · rw [hout' h, hout h]

theorem drawMask_congr {x y : Reg} (n : Nibble) {s u : State} (hi : u.i = s.i) (hbytes : ∀ a, u.byte a = s.byte a)
    (hx : u.reg x = s.reg x) (hy : u.reg y = s.reg y) : drawMask x y n u = drawMask x y n s := by
  simp only [drawMask, hi, hbytes, hx, hy]

/-- Settles O54: the second draw has the mask of the first, and hits a pixel of it that the first turned on. -/
theorem drawingTwiceRestores : Obligations.DrawingTwiceRestores := by
  intro x y n s t u hin hdraw hfb hi hbytes hx hy
  have hok : ¬(0 < n.toNat ∧ s.i.toNat + n.toNat - 1 > 0xFFF) := not_past_of_inside hin
  cases (exec_of_no_fault (i := .drw x y n) (if_neg hok)).symm.trans hdraw
  obtain ⟨hxor, _⟩ := s.drawn_xorsMask x y n
  obtain ⟨hxor', hhit'⟩ := u.drawn_xorsMask x y n
  rw [drawMask_congr n hi hbytes hx hy, hfb] at hxor' hhit'
  refine ⟨_, exec_of_no_fault (if_neg (hi ▸ hok)), hxor.cancel hxor', ?_⟩
  rw [completed_drw_reg_vf, flagByte_eq_one_iff, hhit']
  refine exists_congr fun px => exists_congr fun py => and_congr_right fun hm => ?_
  obtain ⟨hinverted, _⟩ := hxor px py
  have hpixel : (completed (.drw x y n) s).fb.pixel px py = !s.fb.pixel px py := hinverted hm
  rw [hpixel, Bool.not_eq_true']

end Sys2Proof.Machine
end
